-- ==== Sys2Proof/Word.lean ====
section
/-! DEFINITION. The word and byte types (00_scope.md R9, R11). Only the types: their operators stand in
Sys2Proof/Machine/Bits.lean. -/

namespace Sys2Proof

/-- A word is 32 bits (R11). `+` on it is addition modulo 2^32 (R12). -/
abbrev Word := BitVec 32

/-- One byte of a stream, a block or a bus lane. -/
abbrev Byte := BitVec 8

end Sys2Proof
end

