-- ==== Sys2Proof/Syntax.lean ====
section
/-! DEFINITION. The syntax of the engine's operations: the bus operation word (30_encoding.md R100), the 29 operations of
opcode_table.json (R107), the three ways a word is rejected (R105, R108), and the assembler's lines (R111 to R117). -/

namespace Sys2Proof

/-- The algorithm select `ALG` (R38): 0 selects MD5, 1 selects SHA-1. -/
inductive Alg where
  | md5
  | sha1
deriving DecidableEq, Repr, Inhabited

/-- One bus operation, by the fields of the 42-bit bus operation word (R100). -/
structure Bow where
  /-- SZ: 0 = 1 byte, 1 = 2 bytes, 2 = 4 bytes, 3 = any other size or a byte enable off. -/
  sz : BitVec 2
  /-- W: true for a write. -/
  w : Bool
  /-- OFF: byte offset in the register window. -/
  off : BitVec 7
  /-- DATA: write data; 0 for a read. -/
  data : Word
deriving DecidableEq, Repr, Inhabited

/-- A bus operation that has arrived at the host port. The path tells apart the bus paths on which operations wait
for one another (R340); the engine itself cannot tell masters apart (R320). -/
structure Request where
  path : Nat
  bow : Bow
deriving DecidableEq, Repr, Inhabited

/-- The operations of the operation map (R107), one constructor per row of opcode_table.json. A data write carries the
whole DATA word: the lanes a UPDk ignores are legal at any value (R109), and an error record keeps the whole word (R42). -/
inductive Instr where
  | nop
  | initMd5
  | initSha1
  | final
  | upd1 (data : Word)
  | upd2 (data : Word)
  | upd3 (data : Word)
  | upd4 (data : Word)
  | rdId
  | rdCmd
  | rdStatus
  | rdCause
  | rdData1
  | rdData2
  | rdData3
  | rdData4
  | rdState0
  | rdState1
  | rdState2
  | rdState3
  | rdState4
  | rdErrData
  | rdLenLo
  | rdLenHi
  | rdDigest0
  | rdDigest1
  | rdDigest2
  | rdDigest3
  | rdDigest4
deriving DecidableEq, Repr

/-- The names by which decoding rejects a bus operation word (R105). Each has an effect of its own (R108). -/
inductive Reject where
  /-- SZ is not 2, or OFF is not word-aligned (R273). -/
  | badAccess
  /-- A write to a read-only register, or any access to a reserved offset (R271, R272). -/
  | badOffset
  /-- A CMD write of a word that is not one of the four legal ones (R212). -/
  | illegalCmd
deriving DecidableEq, Repr

/-- One line of an engine program (R111): an operation without operand, UPDk with a number or a string (R112), a raw
form (R113), or a pseudo-instruction (R114 to R117). -/
inductive AsmLine where
  | op (i : Instr)
  | updNum (k v : Nat)
  | updStr (k : Nat) (s : List Byte)
  | wr (sz : BitVec 2) (off : BitVec 7) (v : Word)
  | rd (sz : BitVec 2) (off : BitVec 7)
  | update (s : List Byte)
  | rdDigest
  | waitIdle
  | hash (alg : Alg) (s : List Byte)
deriving DecidableEq, Repr

end Sys2Proof
end

