-- ==== Sys2Proof/Config.lean ====
section
/-! DEFINITION. What the spec leaves open (00_scope.md R10): the free values, each a constant with no body, so that a claim
about them holds whatever they are. `BASE` and `NUM_ENGINES` are arguments of the platform layer
(Sys2Proof/Machine/Platform.lean). -/

namespace Sys2Proof

/-- What a host may do when the engine answers an access with a bus error (`BUS_ERROR_ACTION`, R10, R310; U19: "It may be a
host `fault`, a host trap or an ignored error"). -/
inductive BusErrorAction where
  /-- The host goes on with the operations it has issued. -/
  | ignore
  /-- The host issues nothing more: what it had waiting on that path is gone. -/
  | halt
  /-- The host's handler runs: the operations it issues replace what was waiting on that path. -/
  | trap (handler : List Bow)
deriving DecidableEq, Repr, Inhabited

namespace Config

/-- UNVERIFIED free value (log 3). How many free accesses the host port accepts while the compression with index `n` waits
to retire: the only trace of `T_MD5` and `T_SHA1` (R10, R349 to R351) that an operation can see (R82). Finite for every
block, which is the weak fairness of R350. The index is the instance's own: two instances with the same one draw the same value
(DESIGN CHOICE, log 22). -/
opaque retireDelay (alg : Alg) (n : Nat) : Nat

/-- UNVERIFIED free value (log 4). `BUS_ERROR_ACTION` (R10): what the host does after the bus error with index `n`,
which is the instance's own (DESIGN CHOICE, log 22). -/
opaque busErrorAction (r : Request) (n : Nat) : BusErrorAction

/-- UNVERIFIED free value (log 5). `ACCESS_POLICY` (R10, R316): whether a bus master, in a CPU mode, may reach the
window at `base`. Each instance has its own window (R319), and the policy may differ between them. -/
opaque accessPolicy (master mode base : Nat) : Bool

end Config

end Sys2Proof
end

