-- ==== Sys2Proof/Machine/State.lean ====
section
/-! DEFINITION. The state of one engine instance (10_state.md R30), the interface around it (the arrived requests, the last bus
response, the reset input) and the reset state (R58). Plain data throughout. -/

namespace Sys2Proof.Machine

/-- The chaining value `H[0..4]` (R31). -/
structure Chain where
  h0 : Word
  h1 : Word
  h2 : Word
  h3 : Word
  h4 : Word
deriving DecidableEq, Repr

/-- The lifecycle `STATE` (R39). -/
inductive Lifecycle where
  | uninit
  | ready
  | accum
  | final
deriving DecidableEq, Repr

/-- The cause codes 0 to 5 (60_exceptions.md R302). "CODE values 6 to 15 are reserved and are never written" (R308). -/
inductive Code where
  | none
  | illegalCmd
  | notInit
  | finalized
  | badAccess
  | badOffset
deriving DecidableEq, Repr

/-- The record `CAUSE` (R41): EW, EOFF, CODE. Its 16-bit layout is `causeWord` in Sys2Proof/Machine/Flags.lean (R50). -/
structure Cause where
  ew : Bool
  eoff : BitVec 7
  code : Code
deriving DecidableEq, Repr

/-- A 64-byte memory with addresses 0 to 63, as address and byte pairs in one canonical form (`Memory.wf`); a byte not
listed is 0, the reset contents of `BUF` (R58, log 9). Both `BUF` and each copy of it in `PQ` are one. -/
abbrev Memory := List Host.Cell

/-- The bus responses (R310). -/
inductive BusStatus where
  | okay
  | error
deriving DecidableEq, Repr

/-- The engine's answer to one bus operation (R310): the response, and for a read the read data (log 1). -/
structure Response where
  status : BusStatus
  data : Option Word
deriving DecidableEq, Repr

/-- The state. `h` to `pq` are the architectural state of one engine instance (R30); `port`, `resp` and `resetIn` are its
interface; `draws` and `raced` are the model's own counters, which index the free values (log 3, log 4, log 8). -/
structure State where
  /-- `H[0..4]` (R31). -/
  h : Chain
  /-- `BUF[0..63]` (R35). -/
  buf : Memory
  /-- `FILL` (R36). -/
  fill : BitVec 6
  /-- `LEN` (R37). -/
  len : BitVec 64
  /-- `ALG` (R38). -/
  alg : Alg
  /-- `STATE` (R39). -/
  life : Lifecycle
  /-- `ERR` (R40). -/
  err : Bool
  /-- `CAUSE` (R41). -/
  cause : Cause
  /-- `ERRDATA` (R42). -/
  errData : Word
  /-- `PQ` (R43), head first. -/
  pq : List Memory
  /-- The bus operations that have arrived and are not yet accepted, in arrival order (R340, log 2). -/
  port : List Request
  /-- The bus response of the last completed operation (R310, log 1). -/
  resp : Option Response
  /-- The reset input (R345, log 7). -/
  resetIn : Bool
  /-- Model's own: the index of the next free value (log 3, log 4). -/
  draws : Nat
  /-- Model's own: the free accesses accepted while the head of `PQ` has been waiting (log 3). -/
  raced : Nat
deriving DecidableEq, Repr

/-- The ways a run can end in a fault: none. Every bus operation word has an effect (R108), errors are recorded and raise no
trap (R300), a retire never fails (R43), so no step of the engine ends in one (log 17). -/
inductive Fault where
deriving DecidableEq, Repr

/-- The ways the model can refuse an instruction. -/
inductive Refusal where
  /-- Raised by `exec` for an instruction that has no meaning yet: safe. No arm of this model raises it. -/
  | notModelled (mnemonic : String)
deriving DecidableEq, Repr

/-- The engine right after reset (R58): every register 0, STATE = UNINIT, PQ empty. The spec gives no value for the
interface and the model's own fields: nothing has arrived or been answered (DESIGN CHOICE, log 8). -/
def State.reset : State where
  h := ⟨0, 0, 0, 0, 0⟩
  buf := []
  fill := 0
  len := 0
  alg := .md5
  life := .uninit
  err := false
  cause := ⟨false, 0, .none⟩
  errData := 0
  pq := []
  port := []
  resp := none
  resetIn := false
  draws := 0
  raced := 0

end Sys2Proof.Machine
end

