-- ==== Sys2Proof/Machine/Bits.lean ====
section
/-! DEFINITION. Word operators and byte orders (00_scope.md R12, R13). -/

namespace Sys2Proof.Machine

/-- `rotl(x, n)` for 0 < n < 32 (R12). -/
def rotl (x : Word) (n : Nat) : Word :=
  (x <<< n) ||| (x >>> (32 - n))

/-- Byte lane `j` of a bus word: bits 8j+7 to 8j (20_memory.md R72). -/
def lane (v : Word) (j : Nat) : Byte :=
  v.extractLsb' (8 * j) 8

/-- `bswap32(x)`: `{x[7:0], x[15:8], x[23:16], x[31:24]}` (R12). -/
def bswap32 (x : Word) : Word :=
  (x.extractLsb' 0 8 ++ x.extractLsb' 8 8 ++ x.extractLsb' 16 8 ++ x.extractLsb' 24 8 : BitVec (8 + 8 + 8 + 8))

/-- `LE32(b0, b1, b2, b3)` (R13). -/
def le32 (b0 b1 b2 b3 : Byte) : Word :=
  (b3 ++ b2 ++ b1 ++ b0 : BitVec (8 + 8 + 8 + 8))

/-- `BE32(b0, b1, b2, b3)` (R13). -/
def be32 (b0 b1 b2 b3 : Byte) : Word :=
  (b0 ++ b1 ++ b2 ++ b3 : BitVec (8 + 8 + 8 + 8))

/-- `LE64(v)`: the bytes `v[7:0], v[15:8], ..., v[63:56]` (R13). -/
def le64 (v : BitVec 64) : List Byte :=
  (List.range 8).map fun i => v.extractLsb' (8 * i) 8

/-- `BE64(v)`: the bytes of `LE64(v)` in reverse order (R13). -/
def be64 (v : BitVec 64) : List Byte :=
  (le64 v).reverse

end Sys2Proof.Machine
end

