-- ==== Sys2Proof/Machine/Flags.lean ====
section
/-! DEFINITION. The status fields and the packed read-only registers: STATUS (10_state.md R49), CAUSE (R50), the halves of LEN
(R54), the digest registers (R55), and the digest as bytes (43_finalize.md R237). -/

namespace Sys2Proof.Machine

/-- `BUSY`: `PQ` is non-empty (R43). -/
def State.busy (s : State) : Bool :=
  !s.pq.isEmpty

/-- The encoding of `STATE` (R39). -/
def Lifecycle.bits : Lifecycle → BitVec 2
  | .uninit => 0
  | .ready => 1
  | .accum => 2
  | .final => 3

/-- The encoding of `ALG` (R38). -/
def algBit : Alg → Bool
  | .md5 => false
  | .sha1 => true

/-- The cause codes (R302). -/
def Code.bits : Code → BitVec 4
  | .none => 0
  | .illegalCmd => 1
  | .notInit => 2
  | .finalized => 3
  | .badAccess => 4
  | .badOffset => 5

/-- STATUS: `{18'b0, FILL[5:0], 3'b0, ERR, BUSY, ALG, STATE[1:0]}` (R49, R251). -/
def statusWord (s : State) : Word :=
  (0#18 ++ s.fill ++ 0#3 ++ BitVec.ofBool s.err ++ BitVec.ofBool s.busy ++ BitVec.ofBool (algBit s.alg) ++ s.life.bits :
    BitVec (18 + 6 + 3 + 1 + 1 + 1 + 2))

/-- CAUSE: `{16'b0, EW, EOFF[6:0], 4'b0, CODE[3:0]}` (R50, R252). -/
def causeWord (c : Cause) : Word :=
  (0#16 ++ BitVec.ofBool c.ew ++ c.eoff ++ 0#4 ++ c.code.bits : BitVec (16 + 1 + 7 + 4 + 4))

/-- ID (R47). -/
def idWord : Word :=
  0x48415348

/-- LEN_LO: `LEN[31:0]` (R54). -/
def lenLo (l : BitVec 64) : Word :=
  l.extractLsb' 0 32

/-- LEN_HI: `LEN[63:32]` (R54). -/
def lenHi (l : BitVec 64) : Word :=
  l.extractLsb' 32 32

/-- `H[k]` (R31). -/
def Chain.word (h : Chain) (k : Nat) : Word :=
  match k with
  | 0 => h.h0
  | 1 => h.h1
  | 2 => h.h2
  | 3 => h.h3
  | _ => h.h4

/-- DIGESTk: `H[k]` in MD5 mode and `bswap32(H[k])` in SHA-1 mode (R55, R261 to R265). "MD5 has no bytes 16 to 19": DIGEST4 in
MD5 mode is 0 (R265, log 19). -/
def digestWord (alg : Alg) (h : Chain) (k : Nat) : Word :=
  match alg with
  | .md5 => if k < 4 then h.word k else 0
  | .sha1 => bswap32 (h.word k)

/-- The digest (R237): MD5 serializes H[0..3] little-endian, SHA-1 serializes H[0..4] big-endian, in index order. -/
def digestBytes (alg : Alg) (h : Chain) : List Byte :=
  match alg with
  | .md5 => (List.range 4).flatMap fun k => [lane (h.word k) 0, lane (h.word k) 1, lane (h.word k) 2, lane (h.word k) 3]
  | .sha1 => (List.range 5).flatMap fun k => [lane (h.word k) 3, lane (h.word k) 2, lane (h.word k) 1, lane (h.word k) 0]

end Sys2Proof.Machine
end

