-- ==== Sys2Proof/Machine/Md5.lean ====
section
/-! DEFINITION. The MD5 compression function (40_md5_transform.md R130 to R141). A block is given by its bytes: `blk j` is byte
`j`, 0 to 63. K, S and the register rotation are the values R135, R136 and R138 state and mark as general knowledge (log 12). -/

namespace Sys2Proof.Machine

/-- The working registers of an MD5 compression (10_state.md R33). -/
structure Md5Regs where
  a : Word
  b : Word
  c : Word
  d : Word
deriving DecidableEq, Repr

/-- `M[0..15]`: the block as 16 little-endian words (R131). -/
def md5Words (blk : Nat → Byte) : List Word :=
  (List.range 16).map fun j => le32 (blk (4 * j)) (blk (4 * j + 1)) (blk (4 * j + 2)) (blk (4 * j + 3))

/-- The auxiliary function of round 1 (R132). -/
def md5F (x y z : Word) : Word :=
  z ^^^ (x &&& (y ^^^ z))

/-- The auxiliary function of round 2 (R132). -/
def md5G (x y z : Word) : Word :=
  y ^^^ (z &&& (x ^^^ y))

/-- The auxiliary function of round 3 (R132). -/
def md5H (x y z : Word) : Word :=
  x ^^^ y ^^^ z

/-- The auxiliary function of round 4 (R132). -/
def md5I (x y z : Word) : Word :=
  y ^^^ (x ||| ~~~z)

/-- `FN[r]` with `FN = [F, G, H, I]` (R133). -/
def md5FN (r : Nat) : Word → Word → Word → Word :=
  match r with
  | 0 => md5F
  | 1 => md5G
  | 2 => md5H
  | _ => md5I

/-- The message index `g(i)` (R134). -/
def md5Index (i : Nat) : Nat :=
  match i / 16 with
  | 0 => i % 16
  | 1 => (5 * i + 1) % 16
  | 2 => (3 * i + 5) % 16
  | _ => (7 * i) % 16

/-- The rotation amounts `S[r][j]` (R135), one row per round. -/
def md5ShiftTable : List (List Nat) :=
  [ [7, 12, 17, 22],
    [5, 9, 14, 20],
    [4, 11, 16, 23],
    [6, 10, 15, 21] ]

/-- `S[r][i mod 4]` for step `i` in round `r = i div 16` (R135). -/
def md5Shift (i : Nat) : Nat :=
  (md5ShiftTable.getD (i / 16) []).getD (i % 4) 0

/-- The round constants `K[0..15]` (R136). -/
def md5K0 : List Word :=
  [ 0xd76aa478, 0xe8c7b756, 0x242070db, 0xc1bdceee,
    0xf57c0faf, 0x4787c62a, 0xa8304613, 0xfd469501,
    0x698098d8, 0x8b44f7af, 0xffff5bb1, 0x895cd7be,
    0x6b901122, 0xfd987193, 0xa679438e, 0x49b40821 ]

/-- The round constants `K[16..31]` (R136). -/
def md5K1 : List Word :=
  [ 0xf61e2562, 0xc040b340, 0x265e5a51, 0xe9b6c7aa,
    0xd62f105d, 0x02441453, 0xd8a1e681, 0xe7d3fbc8,
    0x21e1cde6, 0xc33707d6, 0xf4d50d87, 0x455a14ed,
    0xa9e3e905, 0xfcefa3f8, 0x676f02d9, 0x8d2a4c8a ]

/-- The round constants `K[32..47]` (R136). -/
def md5K2 : List Word :=
  [ 0xfffa3942, 0x8771f681, 0x6d9d6122, 0xfde5380c,
    0xa4beea44, 0x4bdecfa9, 0xf6bb4b60, 0xbebfbc70,
    0x289b7ec6, 0xeaa127fa, 0xd4ef3085, 0x04881d05,
    0xd9d4d039, 0xe6db99e5, 0x1fa27cf8, 0xc4ac5665 ]

/-- The round constants `K[48..63]` (R136). -/
def md5K3 : List Word :=
  [ 0xf4292244, 0x432aff97, 0xab9423a7, 0xfc93a039,
    0x655b59c3, 0x8f0ccc92, 0xffeff47d, 0x85845dd1,
    0x6fa87e4f, 0xfe2ce6e0, 0xa3014314, 0x4e0811a1,
    0xf7537e82, 0xbd3af235, 0x2ad7d2bb, 0xeb86d391 ]

/-- The table `K` (R136). -/
def md5K : List Word :=
  md5K0 ++ md5K1 ++ md5K2 ++ md5K3

/-- Step `i` with message words `m` (R137), then the register rotation `(a,b,c,d) <- (d, t', b, c)` (R138). -/
def md5Step (m : List Word) (r : Md5Regs) (i : Nat) : Md5Regs :=
  let t := r.a + md5FN (i / 16) r.b r.c r.d + md5K.getD i 0 + m.getD (md5Index i) 0
  ⟨r.d, r.b + rotl t (md5Shift i), r.b, r.c⟩

/-- The working registers after the first `n` steps, from the chaining value `h` (R140). -/
def md5Run (h : Chain) (blk : Nat → Byte) (n : Nat) : Md5Regs :=
  (List.range n).foldl (md5Step (md5Words blk)) ⟨h.h0, h.h1, h.h2, h.h3⟩

/-- `Compress_MD5` (R140): 64 steps, then the feed-forward (R139); word 4 passes through (R130).
Only this result is architectural (R141): the working registers are local to it. -/
def compressMd5 (h : Chain) (blk : Nat → Byte) : Chain :=
  let x := md5Run h blk 64
  ⟨h.h0 + x.a, h.h1 + x.b, h.h2 + x.c, h.h3 + x.d, h.h4⟩

end Sys2Proof.Machine
end

