-- ==== Sys2Proof/WellFormed.lean ====
section
/-! DEFINITION. Well-formedness of the syntax: a read's DATA is 0 (30_encoding.md R100), and the operands the assembler
accepts (R112). -/

namespace Sys2Proof

/-- A bus operation word as R100 writes one: "write data; 0 for a read". The engine ignores the DATA of a read (R109). -/
def Bow.wf (b : Bow) : Bool :=
  b.w || b.data == 0

/-- The form a mnemonic line spells (R112): the operand of `UPDk v` is below 2^(8k). The engine itself accepts any DATA
(R109), so no statement about decoding or running an operation needs this. -/
def Instr.wf : Instr → Bool
  | .upd1 d => decide (d.toNat < 2 ^ 8)
  | .upd2 d => decide (d.toNat < 2 ^ 16)
  | .upd3 d => decide (d.toNat < 2 ^ 24)
  | .upd4 _ => true
  | .nop | .initMd5 | .initSha1 | .final => true
  | .rdId | .rdCmd | .rdStatus | .rdCause | .rdErrData => true
  | .rdData1 | .rdData2 | .rdData3 | .rdData4 => true
  | .rdState0 | .rdState1 | .rdState2 | .rdState3 | .rdState4 => true
  | .rdLenLo | .rdLenHi => true
  | .rdDigest0 | .rdDigest1 | .rdDigest2 | .rdDigest3 | .rdDigest4 => true

/-- "NOP, INIT.MD5, INIT.SHA1, FINAL and every RD.<name> take no operand" (R112). -/
def Instr.takesNoOperand : Instr → Bool
  | .upd1 _ | .upd2 _ | .upd3 _ | .upd4 _ => false
  | .nop | .initMd5 | .initSha1 | .final => true
  | .rdId | .rdCmd | .rdStatus | .rdCause | .rdErrData => true
  | .rdData1 | .rdData2 | .rdData3 | .rdData4 => true
  | .rdState0 | .rdState1 | .rdState2 | .rdState3 | .rdState4 => true
  | .rdLenLo | .rdLenHi => true
  | .rdDigest0 | .rdDigest1 | .rdDigest2 | .rdDigest3 | .rdDigest4 => true

/-- What the assembler accepts (R112): "A number of more than `8k` bits, or a string of other than `k` bytes, is refused by
the assembler". -/
def AsmLine.wf : AsmLine → Bool
  | .op i => i.takesNoOperand
  | .updNum k v => decide (1 ≤ k) && decide (k ≤ 4) && decide (v < 2 ^ (8 * k))
  | .updStr k s => decide (1 ≤ k) && decide (k ≤ 4) && s.length == k
  | .wr _ _ _ => true
  | .rd _ _ => true
  | .update _ => true
  | .rdDigest => true
  | .waitIdle => true
  | .hash _ _ => true

end Sys2Proof
end

