-- ==== Sys2Proof/Decode.lean ====
section
/-! DEFINITION. The 42-bit bus operation word (30_encoding.md R100), decoding (R105, R106), the encoder, and the operation
map (R107). -/

namespace Sys2Proof

/-- The fields of a bus operation word (R100). -/
def Bow.ofWord (v : BitVec 42) : Bow where
  sz := v.extractLsb' 40 2
  w := v.getLsbD 39
  off := v.extractLsb' 32 7
  data := v.extractLsb' 0 32

/-- The bus operation word with the given fields (R100): `{SZ, W, OFF, DATA}`. -/
def Bow.toWord (b : Bow) : BitVec 42 :=
  (b.sz ++ BitVec.ofBool b.w ++ b.off ++ b.data : BitVec (2 + 1 + 7 + 32))

/-- Word alignment: `OFF[1:0] = 0` (R79). -/
def Bow.aligned (b : Bow) : Bool :=
  b.off.extractLsb' 0 2 == 0

/-- The command words: `DecodeCmd` of R105, in its order. -/
def decodeCmd (d : Word) : Except Reject Instr :=
  if d.extractLsb' 9 23 ≠ 0 ∨ d.extractLsb' 4 4 ≠ 0 then .error .illegalCmd
  else match (d.extractLsb' 0 4).toNat, d.getLsbD 8 with
    | 0, false => .ok .nop
    | 1, false => .ok .initMd5
    | 1, true => .ok .initSha1
    | 2, false => .ok .final
    | _, _ => .error .illegalCmd

/-- The registers a write may address: CMD and DATA1 to DATA4 (R105). -/
def decodeWrite (off : BitVec 7) (d : Word) : Except Reject Instr :=
  match off.toNat with
  | 0x04 => decodeCmd d
  | 0x10 => .ok (.upd1 d)
  | 0x14 => .ok (.upd2 d)
  | 0x18 => .ok (.upd3 d)
  | 0x1C => .ok (.upd4 d)
  | _ => .error .badOffset

/-- The registers a read may address: the read-only map of 10_state.md R46, then the write-only registers (R105). -/
def decodeRead (off : BitVec 7) : Except Reject Instr :=
  match off.toNat with
  | 0x00 => .ok .rdId
  | 0x08 => .ok .rdStatus
  | 0x0C => .ok .rdCause
  | 0x20 => .ok .rdState0
  | 0x24 => .ok .rdState1
  | 0x28 => .ok .rdState2
  | 0x2C => .ok .rdState3
  | 0x30 => .ok .rdState4
  | 0x34 => .ok .rdErrData
  | 0x38 => .ok .rdLenLo
  | 0x3C => .ok .rdLenHi
  | 0x40 => .ok .rdDigest0
  | 0x44 => .ok .rdDigest1
  | 0x48 => .ok .rdDigest2
  | 0x4C => .ok .rdDigest3
  | 0x50 => .ok .rdDigest4
  | 0x04 => .ok .rdCmd
  | 0x10 => .ok .rdData1
  | 0x14 => .ok .rdData2
  | 0x18 => .ok .rdData3
  | 0x1C => .ok .rdData4
  | _ => .error .badOffset

/-- `Decode(bow)` of R105: total, first matching line decides, reading no engine state. -/
def decode (b : Bow) : Except Reject Instr :=
  if b.sz ≠ 2 ∨ b.aligned = false then .error .badAccess
  else if b.w then decodeWrite b.off b.data
  else decodeRead b.off

/-- Decoding of a 42-bit word. -/
def decodeWord (v : BitVec 42) : Except Reject Instr :=
  decode (Bow.ofWord v)

/-- W of the operation map (R107). -/
def Instr.isWrite : Instr → Bool
  | .nop | .initMd5 | .initSha1 | .final => true
  | .upd1 _ | .upd2 _ | .upd3 _ | .upd4 _ => true
  | .rdId | .rdCmd | .rdStatus | .rdCause | .rdErrData => false
  | .rdData1 | .rdData2 | .rdData3 | .rdData4 => false
  | .rdState0 | .rdState1 | .rdState2 | .rdState3 | .rdState4 => false
  | .rdLenLo | .rdLenHi => false
  | .rdDigest0 | .rdDigest1 | .rdDigest2 | .rdDigest3 | .rdDigest4 => false

/-- OFF of the operation map (R107). -/
def Instr.offset : Instr → BitVec 7
  | .nop | .initMd5 | .initSha1 | .final => 0x04
  | .upd1 _ => 0x10
  | .upd2 _ => 0x14
  | .upd3 _ => 0x18
  | .upd4 _ => 0x1C
  | .rdId => 0x00
  | .rdCmd => 0x04
  | .rdStatus => 0x08
  | .rdCause => 0x0C
  | .rdData1 => 0x10
  | .rdData2 => 0x14
  | .rdData3 => 0x18
  | .rdData4 => 0x1C
  | .rdState0 => 0x20
  | .rdState1 => 0x24
  | .rdState2 => 0x28
  | .rdState3 => 0x2C
  | .rdState4 => 0x30
  | .rdErrData => 0x34
  | .rdLenLo => 0x38
  | .rdLenHi => 0x3C
  | .rdDigest0 => 0x40
  | .rdDigest1 => 0x44
  | .rdDigest2 => 0x48
  | .rdDigest3 => 0x4C
  | .rdDigest4 => 0x50

/-- The word an operation writes to its register: DATA for UPDk, the command word for a command (R106), 0 for a read. -/
def Instr.data : Instr → Word
  | .upd1 d | .upd2 d | .upd3 d | .upd4 d => d
  | .nop => 0x00000000
  | .initMd5 => 0x00000001
  | .initSha1 => 0x00000101
  | .final => 0x00000002
  | .rdId | .rdCmd | .rdStatus | .rdCause | .rdErrData => 0
  | .rdData1 | .rdData2 | .rdData3 | .rdData4 => 0
  | .rdState0 | .rdState1 | .rdState2 | .rdState3 | .rdState4 => 0
  | .rdLenLo | .rdLenHi => 0
  | .rdDigest0 | .rdDigest1 | .rdDigest2 | .rdDigest3 | .rdDigest4 => 0

/-- The bus operation of an instruction: SZ = 2 and the W, OFF, DATA of its row (R107). -/
def encode (i : Instr) : Bow where
  sz := 2
  w := i.isWrite
  off := i.offset
  data := i.data

/-- The 42-bit word of an instruction. -/
def encodeWord (i : Instr) : BitVec 42 :=
  (encode i).toWord

/-- The spec's name of an operation (the mnemonic column of R107). -/
def Instr.mnemonic : Instr → String
  | .nop => "NOP"
  | .initMd5 => "INIT.MD5"
  | .initSha1 => "INIT.SHA1"
  | .final => "FINAL"
  | .upd1 _ => "UPD1"
  | .upd2 _ => "UPD2"
  | .upd3 _ => "UPD3"
  | .upd4 _ => "UPD4"
  | .rdId => "RD.ID"
  | .rdCmd => "RD.CMD"
  | .rdStatus => "RD.STATUS"
  | .rdCause => "RD.CAUSE"
  | .rdData1 => "RD.DATA1"
  | .rdData2 => "RD.DATA2"
  | .rdData3 => "RD.DATA3"
  | .rdData4 => "RD.DATA4"
  | .rdState0 => "RD.STATE0"
  | .rdState1 => "RD.STATE1"
  | .rdState2 => "RD.STATE2"
  | .rdState3 => "RD.STATE3"
  | .rdState4 => "RD.STATE4"
  | .rdErrData => "RD.ERRDATA"
  | .rdLenLo => "RD.LENLO"
  | .rdLenHi => "RD.LENHI"
  | .rdDigest0 => "RD.DIGEST0"
  | .rdDigest1 => "RD.DIGEST1"
  | .rdDigest2 => "RD.DIGEST2"
  | .rdDigest3 => "RD.DIGEST3"
  | .rdDigest4 => "RD.DIGEST4"

/-- One row of the operation map (R107): "An operation is selected when `(bow & mask) = match`." -/
structure OpRow where
  mnemonic : String
  matchBits : BitVec 42
  mask : BitVec 42
deriving DecidableEq, Repr

/-- The CMD rows of R107. -/
def cmdRows : List OpRow :=
  [ ⟨"NOP", 0x28400000000, 0x3FFFFFFFFFF⟩,
    ⟨"INIT.MD5", 0x28400000001, 0x3FFFFFFFFFF⟩,
    ⟨"INIT.SHA1", 0x28400000101, 0x3FFFFFFFFFF⟩,
    ⟨"FINAL", 0x28400000002, 0x3FFFFFFFFFF⟩ ]

/-- The DATAWRITE rows of R107. -/
def dataRows : List OpRow :=
  [ ⟨"UPD1", 0x29000000000, 0x3FF00000000⟩,
    ⟨"UPD2", 0x29400000000, 0x3FF00000000⟩,
    ⟨"UPD3", 0x29800000000, 0x3FF00000000⟩,
    ⟨"UPD4", 0x29C00000000, 0x3FF00000000⟩ ]

/-- The READ rows of R107. -/
def readRows : List OpRow :=
  [ ⟨"RD.ID", 0x20000000000, 0x3FF00000000⟩,
    ⟨"RD.CMD", 0x20400000000, 0x3FF00000000⟩,
    ⟨"RD.STATUS", 0x20800000000, 0x3FF00000000⟩,
    ⟨"RD.CAUSE", 0x20C00000000, 0x3FF00000000⟩,
    ⟨"RD.DATA1", 0x21000000000, 0x3FF00000000⟩,
    ⟨"RD.DATA2", 0x21400000000, 0x3FF00000000⟩,
    ⟨"RD.DATA3", 0x21800000000, 0x3FF00000000⟩,
    ⟨"RD.DATA4", 0x21C00000000, 0x3FF00000000⟩ ] ++
  [ ⟨"RD.STATE0", 0x22000000000, 0x3FF00000000⟩,
    ⟨"RD.STATE1", 0x22400000000, 0x3FF00000000⟩,
    ⟨"RD.STATE2", 0x22800000000, 0x3FF00000000⟩,
    ⟨"RD.STATE3", 0x22C00000000, 0x3FF00000000⟩,
    ⟨"RD.STATE4", 0x23000000000, 0x3FF00000000⟩,
    ⟨"RD.ERRDATA", 0x23400000000, 0x3FF00000000⟩,
    ⟨"RD.LENLO", 0x23800000000, 0x3FF00000000⟩,
    ⟨"RD.LENHI", 0x23C00000000, 0x3FF00000000⟩ ] ++
  [ ⟨"RD.DIGEST0", 0x24000000000, 0x3FF00000000⟩,
    ⟨"RD.DIGEST1", 0x24400000000, 0x3FF00000000⟩,
    ⟨"RD.DIGEST2", 0x24800000000, 0x3FF00000000⟩,
    ⟨"RD.DIGEST3", 0x24C00000000, 0x3FF00000000⟩,
    ⟨"RD.DIGEST4", 0x25000000000, 0x3FF00000000⟩ ]

/-- The operation map of R107, transcribed from the table; decoding is written from R105, not from this list. -/
def opcodeRows : List OpRow :=
  cmdRows ++ dataRows ++ readRows

/-- The bus operation whose table word is `w`, the bits from `nbits` up read as 0 (log 13). -/
def Bow.ofTableWord (nbits w : Nat) : Bow :=
  Bow.ofWord (BitVec.ofNat 42 (w % 2 ^ nbits))

/-- The instruction the decoder reads from a table word of `nbits` bits. -/
def decodeTableWord (nbits w : Nat) : Option Instr :=
  (decode (Bow.ofTableWord nbits w)).toOption

end Sys2Proof
end

