-- ==== Sys2Proof/Machine/Operands.lean ====
section
/-! DEFINITION. The operands of an operation, taken from its bus operation word (30_encoding.md R104). -/

namespace Sys2Proof.Machine

/-- "INIT's algorithm is `ALG = DATA[8]`" (R104). -/
def cmdAlg (b : Bow) : Alg :=
  if b.data.getLsbD 8 then .sha1 else .md5

/-- "The byte count of a data write is `k = OFF[3:2] + 1` for OFF in 0x10 to 0x1C" (R104). -/
def updCount (b : Bow) : Nat :=
  (b.off.extractLsb' 2 2).toNat + 1

/-- The bytes of a data write: `b_j = DATA[8j+7:8j]` for `j` in 0 to k-1, lane 0 first (R73, R104). -/
def dataBytes (b : Bow) : List Byte :=
  (List.range (updCount b)).map (lane b.data)

/-- "A read's register index is `(OFF - 0x20) / 4` for STATE0 to STATE4" (R104). -/
def stateIndex (b : Bow) : Nat :=
  (b.off.toNat - 0x20) / 4

/-- The register index "`(OFF - 0x40) / 4` for DIGEST0 to DIGEST4" (R104). -/
def digestIndex (b : Bow) : Nat :=
  (b.off.toNat - 0x40) / 4

end Sys2Proof.Machine
end

