-- ==== Sys2Proof/Machine/Sha1.lean ====
section
/-! DEFINITION. The SHA-1 compression function (41_sha1_transform.md R170 to R179). A block is given by its bytes: `blk j` is
byte `j`, 0 to 63. The round functions, the constants KS and the step are the ones R173 to R176 state and mark as general
knowledge (log 12). -/

namespace Sys2Proof.Machine

/-- The working registers of a SHA-1 compression (10_state.md R33). -/
structure Sha1Regs where
  a : Word
  b : Word
  c : Word
  d : Word
  e : Word
deriving DecidableEq, Repr

/-- `W[0..15]`: the block as 16 big-endian words (R171). -/
def sha1Words (blk : Nat → Byte) : List Word :=
  (List.range 16).map fun j => be32 (blk (4 * j)) (blk (4 * j + 1)) (blk (4 * j + 2)) (blk (4 * j + 3))

/-- Appends `W[t]` for `t` = the length of `w` (R172). -/
def sha1Extend (w : List Word) : List Word :=
  let t := w.length
  w ++ [rotl (w.getD (t - 3) 0 ^^^ w.getD (t - 8) 0 ^^^ w.getD (t - 14) 0 ^^^ w.getD (t - 16) 0) 1]

/-- The message schedule `W[0..79]` (R171, R172). -/
def sha1Schedule (blk : Nat → Byte) : List Word :=
  (List.range 64).foldl (fun w _ => sha1Extend w) (sha1Words blk)

/-- Choice (R173). -/
def sha1Choice (b c d : Word) : Word :=
  d ^^^ (b &&& (c ^^^ d))

/-- Parity (R173). -/
def sha1Parity (b c d : Word) : Word :=
  b ^^^ c ^^^ d

/-- Majority (R173). -/
def sha1Majority (b c d : Word) : Word :=
  (b &&& c) ||| (b &&& d) ||| (c &&& d)

/-- The round function of round `q = t div 20` (R173). -/
def sha1F (q : Nat) : Word → Word → Word → Word :=
  match q with
  | 0 => sha1Choice
  | 1 => sha1Parity
  | 2 => sha1Majority
  | _ => sha1Parity

/-- The round constants `KS[q]` (R174). -/
def sha1KS (q : Nat) : Word :=
  match q with
  | 0 => 0x5a827999
  | 1 => 0x6ed9eba1
  | 2 => 0x8f1bbcdc
  | _ => 0xca62c1d6

/-- Step `t` with schedule `w` (R175). -/
def sha1Step (w : List Word) (r : Sha1Regs) (t : Nat) : Sha1Regs :=
  let sum := rotl r.a 5 + sha1F (t / 20) r.b r.c r.d + r.e + sha1KS (t / 20) + w.getD t 0
  ⟨sum, r.a, rotl r.b 30, r.c, r.d⟩

/-- The working registers after the first `n` steps, from the chaining value `h` (R177). -/
def sha1Run (h : Chain) (blk : Nat → Byte) (n : Nat) : Sha1Regs :=
  (List.range n).foldl (sha1Step (sha1Schedule blk)) ⟨h.h0, h.h1, h.h2, h.h3, h.h4⟩

/-- `Compress_SHA1` (R177): 80 steps, then the feed-forward (R176). Only this result is architectural (R179): the schedule and
the working registers are local to it. -/
def compressSha1 (h : Chain) (blk : Nat → Byte) : Chain :=
  let x := sha1Run h blk 80
  ⟨h.h0 + x.a, h.h1 + x.b, h.h2 + x.c, h.h3 + x.d, h.h4 + x.e⟩

end Sys2Proof.Machine
end

