-- ==== Sys2Proof/Machine/Ops.lean ====
section
/-! DEFINITION. The operations the instructions share: the 64-byte memory (10_state.md R35), the bus response (60_exceptions.md
R310), error recording (R301), the stream gate (42_stream_commands.md R202), the byte append (R201), the queue and the
core's retire (10_state.md R43), and the reset event (70_reset_and_hazards.md R345). -/

namespace Sys2Proof.Machine

/-! The 64-byte memory. -/

/-- Byte `a`; a byte not listed is 0 (R58, log 9). -/
def Memory.read (m : Memory) (a : Nat) : Byte :=
  match m with
  | [] => 0
  | (k, v) :: rest => if k = a then v else Memory.read rest a

/-- Writes byte `a`, keeping the canonical form: the entry of a byte that becomes 0 goes away. -/
def Memory.write (m : Memory) (a : Nat) (b : Byte) : Memory :=
  match m with
  | [] => if b = 0 then [] else [(a, b)]
  | (k, v) :: rest =>
    if a < k then (if b = 0 then (k, v) :: rest else (a, b) :: (k, v) :: rest)
    else if a = k then (if b = 0 then rest else (a, b) :: rest)
    else (k, v) :: Memory.write rest a b

/-- Writes the bytes `bs` at `a`, `a + 1`, and so on. -/
def Memory.writeBytes (m : Memory) (a : Nat) (bs : List Byte) : Memory :=
  match bs with
  | [] => m
  | b :: rest => Memory.writeBytes (Memory.write m a b) (a + 1) rest

/-- "64 bytes of 0" (R204, R230). -/
def Memory.zero : Memory :=
  []

/-- The canonical form: addresses strictly rising and below 64, no entry equal to what an unlisted byte reads as. -/
abbrev Memory.wf (m : Memory) : Prop :=
  m.Pairwise (fun c d => c.1 < d.1) ∧ ∀ c ∈ m, c.1 < 64 ∧ c.2 ≠ 0

/-! Bus responses (R200, R310). -/

/-- The operation ends with the given bus response (log 1). -/
def State.respond (s : State) (r : Response) : State :=
  { s with resp := some r }

/-- OKAY for a write. -/
def State.okWrite (s : State) : State :=
  s.respond ⟨.okay, none⟩

/-- OKAY for a read, with its data. -/
def State.okRead (s : State) (v : Word) : State :=
  s.respond ⟨.okay, some v⟩

/-- The bus error response: "A read with a bus error returns data 0" (R310). -/
def State.busErrorResponse (s : State) (b : Bow) : State :=
  s.respond ⟨.error, if b.w then none else some 0⟩

/-! Errors. -/

/-- `SetErr(code, bow)` (R301): records the first error only. -/
def setErr (code : Code) (b : Bow) (s : State) : State :=
  if s.err then s
  else { s with
    err := true
    cause := ⟨b.w, b.off, code⟩
    errData := if b.w then b.data else 0 }

/-- `StreamGate()` before the body of a stream command (R202): poison, then NOT_INIT, then FINALIZED, else the body. -/
def streamGate (b : Bow) (body : State → State) (s : State) : State :=
  if s.err then s
  else match s.life with
    | .uninit => setErr .notInit b s
    | .final => setErr .finalized b s
    | .ready => body s
    | .accum => body s

/-! The queue and the core. -/

/-- `Enqueue(blk)` (00_scope.md R17): a copy of the block at the tail of `PQ`. -/
def enqueue (blk : Memory) (s : State) : State :=
  { s with pq := s.pq ++ [blk] }

/-- `Compress(alg, h, blk)` (00_scope.md R17). -/
def compress (alg : Alg) (h : Chain) (blk : Nat → Byte) : Chain :=
  match alg with
  | .md5 => compressMd5 h blk
  | .sha1 => compressSha1 h blk

/-- The core's `Retire` (R43), enabled when `PQ` is non-empty. One step writes the whole result: "Only the result of rule R140 is
architectural" (40_md5_transform.md R141; 41_sha1_transform.md R179), and `State` holds no working register, message word,
schedule or step index. The last two fields are the model's counters (log 3). -/
def retire (s : State) : State :=
  match s.pq with
  | [] => s
  | blk :: rest => { s with h := compress s.alg s.h (Memory.read blk), pq := rest, draws := s.draws + 1, raced := 0 }

/-- `n` retires in a row. -/
def retires (n : Nat) (s : State) : State :=
  match n with
  | 0 => s
  | k + 1 => retires k (retire s)

/-- The state a held access sees (R340): every queued block has retired. -/
def drain (s : State) : State :=
  retires s.pq.length s

/-! Streams. -/

/-- The initial value of an algorithm (42_stream_commands.md R204, R205; 41_sha1_transform.md R178). -/
def initialValue (alg : Alg) : Chain :=
  match alg with
  | .md5 => ⟨0x67452301, 0xefcdab89, 0x98badcfe, 0x10325476, 0x00000000⟩
  | .sha1 => ⟨0x67452301, 0xefcdab89, 0x98badcfe, 0x10325476, 0xc3d2e1f0⟩

/-- The body of INIT (R204, R205). -/
def startStream (alg : Alg) (s : State) : State :=
  { s with
    alg := alg
    h := initialValue alg
    buf := Memory.zero
    fill := 0
    len := 0
    life := .ready
    err := false
    cause := ⟨false, 0, .none⟩
    errData := 0 }

/-- One turn of the loop of `Update` (R201): append a byte at `BUF[FILL]`; at `FILL = 64` enqueue the block and set `FILL`
to 0. The bytes at and above `FILL` keep the earlier block (R35). -/
def appendByte (s : State) (b : Byte) : State :=
  let buf' := Memory.write s.buf s.fill.toNat b
  if s.fill.toNat + 1 = 64 then enqueue buf' { s with buf := buf', fill := 0 }
  else { s with buf := buf', fill := s.fill + 1 }

/-- `Update(k, DATA)` after its gate (R201): append the bytes in order, count them, go to ACCUM. -/
def appendBytes (bs : List Byte) (s : State) : State :=
  let s1 := bs.foldl appendByte s
  { s1 with len := s1.len + BitVec.ofNat 64 bs.length, life := .accum }

/-- `bits = (LEN * 8) mod 2^64` as the last 8 bytes of the block: `LE64` in MD5 mode (43_finalize.md R233), `BE64` in SHA-1 mode
(R234). -/
def lengthField (alg : Alg) (len : BitVec 64) : List Byte :=
  match alg with
  | .md5 => le64 (len * 8)
  | .sha1 => be64 (len * 8)

/-- The block with the marker 0x80 at `p` and zeros above it (43_finalize.md R231). -/
def padBlock (m : Memory) (p : Nat) : Memory :=
  Memory.writeBytes m p (0x80 :: List.replicate (63 - p) 0)

/-- The body of FINAL after its gate (R230). -/
def finishStream (s : State) : State :=
  let p := s.fill.toNat
  let padded := padBlock s.buf p
  let s1 := if 56 ≤ p then { enqueue padded s with buf := Memory.zero } else { s with buf := padded }
  let last := Memory.writeBytes s1.buf 56 (lengthField s1.alg s1.len)
  { enqueue last s1 with buf := Memory.zero, fill := 0, life := .final }

/-! Reset. -/

/-- The reset event (R345): every register to its reset value (R58), queued blocks discarded, the operation in progress and
the held ones not performed and given no response (log 7). The free-value index moves on, so that a block
discarded here and the next one share no free value (log 8). -/
def resetEvent (s : State) : State :=
  { State.reset with draws := s.draws + 1 }

end Sys2Proof.Machine
end

