-- ==== Sys2Proof/Machine/Reads.lean ====
section
/-! DEFINITION. The register reads (44_register_access.md R250 to R270). Each is the meaning of a read that has been accepted
(log 15); a read changes no state (R82) and gets OKAY with its data (R310). -/

namespace Sys2Proof.Machine

/-- RD.ID (44_register_access.md R250). -/
def execRdId (s : State) : Host.Outcome State Fault Refusal :=
  .next (s.okRead idWord)

/-- RD.STATUS (R251). -/
def execRdStatus (s : State) : Host.Outcome State Fault Refusal :=
  .next (s.okRead (statusWord s))

/-- RD.CAUSE (R252): reading does not clear it. -/
def execRdCause (s : State) : Host.Outcome State Fault Refusal :=
  .next (s.okRead (causeWord s.cause))

/-- RD.ERRDATA (R253). -/
def execRdErrData (s : State) : Host.Outcome State Fault Refusal :=
  .next (s.okRead s.errData)

/-- RD.STATE0: `H[0]` (R254). -/
def execRdState0 (s : State) : Host.Outcome State Fault Refusal :=
  .next (s.okRead (s.h.word (stateIndex (encode .rdState0))))

/-- RD.STATE1: `H[1]` (R255). -/
def execRdState1 (s : State) : Host.Outcome State Fault Refusal :=
  .next (s.okRead (s.h.word (stateIndex (encode .rdState1))))

/-- RD.STATE2: `H[2]` (R256). -/
def execRdState2 (s : State) : Host.Outcome State Fault Refusal :=
  .next (s.okRead (s.h.word (stateIndex (encode .rdState2))))

/-- RD.STATE3: `H[3]` (R257). -/
def execRdState3 (s : State) : Host.Outcome State Fault Refusal :=
  .next (s.okRead (s.h.word (stateIndex (encode .rdState3))))

/-- RD.STATE4: `H[4]` (R258). -/
def execRdState4 (s : State) : Host.Outcome State Fault Refusal :=
  .next (s.okRead (s.h.word (stateIndex (encode .rdState4))))

/-- RD.LENLO: `LEN[31:0]` (R259). -/
def execRdLenLo (s : State) : Host.Outcome State Fault Refusal :=
  .next (s.okRead (lenLo s.len))

/-- RD.LENHI: `LEN[63:32]` (R260). -/
def execRdLenHi (s : State) : Host.Outcome State Fault Refusal :=
  .next (s.okRead (lenHi s.len))

/-- RD.DIGEST0: digest bytes 0 to 3 (R261). -/
def execRdDigest0 (s : State) : Host.Outcome State Fault Refusal :=
  .next (s.okRead (digestWord s.alg s.h (digestIndex (encode .rdDigest0))))

/-- RD.DIGEST1: digest bytes 4 to 7 (R262). -/
def execRdDigest1 (s : State) : Host.Outcome State Fault Refusal :=
  .next (s.okRead (digestWord s.alg s.h (digestIndex (encode .rdDigest1))))

/-- RD.DIGEST2: digest bytes 8 to 11 (R263). -/
def execRdDigest2 (s : State) : Host.Outcome State Fault Refusal :=
  .next (s.okRead (digestWord s.alg s.h (digestIndex (encode .rdDigest2))))

/-- RD.DIGEST3: digest bytes 12 to 15 (R264). -/
def execRdDigest3 (s : State) : Host.Outcome State Fault Refusal :=
  .next (s.okRead (digestWord s.alg s.h (digestIndex (encode .rdDigest3))))

/-- RD.DIGEST4: digest bytes 16 to 19 (R265). -/
def execRdDigest4 (s : State) : Host.Outcome State Fault Refusal :=
  .next (s.okRead (digestWord s.alg s.h (digestIndex (encode .rdDigest4))))

/-- RD.CMD: 0, not the last command word (R266). -/
def execRdCmd (s : State) : Host.Outcome State Fault Refusal :=
  .next (s.okRead 0)

/-- RD.DATA1: 0; it appends nothing (R267). -/
def execRdData1 (s : State) : Host.Outcome State Fault Refusal :=
  .next (s.okRead 0)

/-- RD.DATA2: 0; it appends nothing (R268). -/
def execRdData2 (s : State) : Host.Outcome State Fault Refusal :=
  .next (s.okRead 0)

/-- RD.DATA3: 0; it appends nothing (R269). -/
def execRdData3 (s : State) : Host.Outcome State Fault Refusal :=
  .next (s.okRead 0)

/-- RD.DATA4: 0; it appends nothing (R270). -/
def execRdData4 (s : State) : Host.Outcome State Fault Refusal :=
  .next (s.okRead 0)

end Sys2Proof.Machine
end

