-- ==== Sys2Proof/Machine/Stream.lean ====
section
/-! DEFINITION. The stream commands: NOP (42_stream_commands.md R203), INIT (R204, R205), UPD1 to UPD4 (R206 to R209) and FINAL
(43_finalize.md R230). Each is the meaning of an operation that has been accepted (log 15); each gets OKAY (R200). -/

namespace Sys2Proof.Machine

/-- NOP: "`skip`. No state changes." (R203) -/
def execNop (s : State) : Host.Outcome State Fault Refusal :=
  .next s.okWrite

/-- INIT.MD5 (R204). -/
def execInitMd5 (s : State) : Host.Outcome State Fault Refusal :=
  .next (startStream (cmdAlg (encode .initMd5)) s).okWrite

/-- INIT.SHA1 (R205). -/
def execInitSha1 (s : State) : Host.Outcome State Fault Refusal :=
  .next (startStream (cmdAlg (encode .initSha1)) s).okWrite

/-- A data write: `Update(k, DATA)` of R201, gated by R202, `k` and the bytes from the bus operation word (R104). -/
def update (b : Bow) (s : State) : State :=
  streamGate b (appendBytes (dataBytes b)) s

/-- UPD1: appends one byte (R206). -/
def execUpd1 (data : Word) (s : State) : Host.Outcome State Fault Refusal :=
  .next (update (encode (.upd1 data)) s).okWrite

/-- UPD2: appends two bytes (R207). -/
def execUpd2 (data : Word) (s : State) : Host.Outcome State Fault Refusal :=
  .next (update (encode (.upd2 data)) s).okWrite

/-- UPD3: appends three bytes (R208). -/
def execUpd3 (data : Word) (s : State) : Host.Outcome State Fault Refusal :=
  .next (update (encode (.upd3 data)) s).okWrite

/-- UPD4: appends four bytes (R209). -/
def execUpd4 (data : Word) (s : State) : Host.Outcome State Fault Refusal :=
  .next (update (encode (.upd4 data)) s).okWrite

/-- FINAL: pads, enqueues the last one or two blocks, ends the stream (R230). -/
def execFinal (s : State) : Host.Outcome State Fault Refusal :=
  .next (streamGate (encode .final) finishStream s).okWrite

end Sys2Proof.Machine
end

