-- ==== Sys2Proof/Machine/Dispatch.lean ====
section
/-! DEFINITION. The dispatch: one arm per constructor of Instr, in the order of opcode_table.json. -/

namespace Sys2Proof.Machine

def exec (i : Instr) (s : State) : Host.Outcome State Fault Refusal :=
  match i with
  | .nop => Sys2Proof.Machine.execNop s
  | .initMd5 => Sys2Proof.Machine.execInitMd5 s
  | .initSha1 => Sys2Proof.Machine.execInitSha1 s
  | .final => Sys2Proof.Machine.execFinal s
  | .upd1 data => Sys2Proof.Machine.execUpd1 data s
  | .upd2 data => Sys2Proof.Machine.execUpd2 data s
  | .upd3 data => Sys2Proof.Machine.execUpd3 data s
  | .upd4 data => Sys2Proof.Machine.execUpd4 data s
  | .rdId => Sys2Proof.Machine.execRdId s
  | .rdCmd => Sys2Proof.Machine.execRdCmd s
  | .rdStatus => Sys2Proof.Machine.execRdStatus s
  | .rdCause => Sys2Proof.Machine.execRdCause s
  | .rdData1 => Sys2Proof.Machine.execRdData1 s
  | .rdData2 => Sys2Proof.Machine.execRdData2 s
  | .rdData3 => Sys2Proof.Machine.execRdData3 s
  | .rdData4 => Sys2Proof.Machine.execRdData4 s
  | .rdState0 => Sys2Proof.Machine.execRdState0 s
  | .rdState1 => Sys2Proof.Machine.execRdState1 s
  | .rdState2 => Sys2Proof.Machine.execRdState2 s
  | .rdState3 => Sys2Proof.Machine.execRdState3 s
  | .rdState4 => Sys2Proof.Machine.execRdState4 s
  | .rdErrData => Sys2Proof.Machine.execRdErrData s
  | .rdLenLo => Sys2Proof.Machine.execRdLenLo s
  | .rdLenHi => Sys2Proof.Machine.execRdLenHi s
  | .rdDigest0 => Sys2Proof.Machine.execRdDigest0 s
  | .rdDigest1 => Sys2Proof.Machine.execRdDigest1 s
  | .rdDigest2 => Sys2Proof.Machine.execRdDigest2 s
  | .rdDigest3 => Sys2Proof.Machine.execRdDigest3 s
  | .rdDigest4 => Sys2Proof.Machine.execRdDigest4 s

end Sys2Proof.Machine
end

