-- ==== Sys2Proof/Machine/Port.lean ====
section
/-! DEFINITION. The host port: which step is enabled (70_reset_and_hazards.md R340, R341), the acceptance of an operation, the
effect of a word the decoder rejects (30_encoding.md R108), the host's reaction to a bus error (00_scope.md R10), and what the
outside world can do to the engine. -/

namespace Sys2Proof.Machine

/-- The free operations (R341): reads with SZ = 2 at 0x00 (ID), 0x08 (STATUS), 0x0C (CAUSE) and 0x34 (ERRDATA). -/
def free (b : Bow) : Bool :=
  b.sz == 2 && !b.w && (b.off == 0x00 || b.off == 0x08 || b.off == 0x0C || b.off == 0x34)

/-- What the next step of the engine is. -/
inductive Action where
  | reset
  | idle
  | retire
  | accept (r : Request) (rest : List Request)
deriving DecidableEq, Repr

/-- The first free operation that is not waiting behind another one on its own path, and the requests without it. "While an
operation is held ... the host issues nothing after it on the same path" (R340, log 10). -/
def firstFree (waiting : List Nat) (port : List Request) : Option (Request × List Request) :=
  match port with
  | [] => none
  | r :: rest =>
    if free r.bow && !waiting.contains r.path then some (r, rest)
    else (firstFree (r.path :: waiting) rest).map fun found => (found.1, r :: found.2)

/-- Whether the core's retire comes before a free access that is also enabled: the free value of log 3 (R82, U13). -/
def coreFirst (s : State) : Bool :=
  decide (Config.retireDelay s.alg s.draws ≤ s.raced)

/-- The next step. Reset comes first (R345). While `BUSY = 1` the core retires, or a free operation is accepted (R341); every
other operation is held (R340). Otherwise the oldest request is accepted. With nothing to do the engine is idle (R322). -/
def nextAction (s : State) : Action :=
  if s.resetIn then .reset
  else if s.busy then
    match firstFree [] s.port with
    | none => .retire
    | some (r, rest) => if coreFirst s then .retire else .accept r rest
  else
    match s.port with
    | [] => .idle
    | r :: rest => .accept r rest

/-- The request leaves the port when it is accepted. A free access accepted while the core waits is counted (log 3). -/
def takeRequest (rest : List Request) (s : State) : State :=
  { s with port := rest, raced := if s.busy then s.raced + 1 else s.raced }

/-- The requests after a bus error on `path`, by what the host does (R10, R310, U19, log 4). The host acts on the port of the
instance that answered and on no other: what it has waiting at another instance stays, and its handler issues to this window
only (DESIGN CHOICE, log 23). -/
def hostAfterBusError (action : BusErrorAction) (path : Nat) (port : List Request) : List Request :=
  match action with
  | .ignore => port
  | .halt => port.filter fun r => r.path != path
  | .trap handler => (port.filter fun r => r.path != path) ++ handler.map fun b => ⟨path, b⟩

/-- An operation that raises `code` and gets a bus error (R300, R310). -/
def raiseBusError (code : Code) (r : Request) (s : State) : State :=
  let s1 := (setErr code r.bow s).busErrorResponse r.bow
  { s1 with
    port := hostAfterBusError (Config.busErrorAction r s.draws) r.path s1.port
    draws := s.draws + 1 }

/-- The effect of an accepted word that decodes to no operation (R108): BAD_ACCESS (R273, R306), BAD_OFFSET (R271, R272,
R307), ILLEGAL_CMD, which gets OKAY (R212, R303). -/
def rejectEffect (e : Reject) (r : Request) (s : State) : State :=
  match e with
  | .badAccess => raiseBusError .badAccess r s
  | .badOffset => raiseBusError .badOffset r s
  | .illegalCmd => (setErr .illegalCmd r.bow s).okWrite

/-! What the outside world can do. -/

/-- A bus operation arrives at the host port (R5, R320, log 2). -/
def State.arrive (r : Request) (s : State) : State :=
  { s with port := s.port ++ [r] }

/-- The platform asserts the reset input (R345, log 7). -/
def State.assertReset (s : State) : State :=
  { s with resetIn := true }

/-- `s` with the bus operation `b` alone at the host port and accepted by the very next step: the reset input is not
asserted, and the blocks a held operation would wait for have retired (R340, log 14). -/
def State.withOperation (s : State) (b : Bow) : State :=
  { drain s with port := [⟨0, b⟩], resetIn := false }

end Sys2Proof.Machine
end

