-- ==== Sys2Proof/Machine/Step.lean ====
section
/-! DEFINITION. One step of the engine (00_scope.md R5; 20_memory.md R81): the reset event, one retire, one accepted bus operation,
or nothing. -/

namespace Sys2Proof.Machine

/-- Performs an accepted operation: its own rule, or the effect of a word that decodes to none (30_encoding.md R105, R108). -/
def perform (r : Request) (s : State) : Host.Outcome State Fault Refusal :=
  match decode r.bow with
  | .ok i => exec i s
  | .error e => .next (rejectEffect e r s)

/-- One step. It answers a next state on every state: the engine raises no trap (60_exceptions.md R300) and a retire never
fails (10_state.md R43). With nothing to do it answers the same state (log 11). -/
def step (s : State) : Host.Outcome State Fault Refusal :=
  match nextAction s with
  | .reset => .next (resetEvent s)
  | .idle => .next s
  | .retire => .next (retire s)
  | .accept r rest => perform r (takeRequest rest s)

/-- `s` with the bus operation of a table word at the host port, accepted by the very next step (log 13, log 14). -/
def State.withFetchWord (s : State) (nbits w : Nat) : State :=
  s.withOperation (Bow.ofTableWord nbits w)

end Sys2Proof.Machine
end

