-- ==== Sys2Proof/Machine/Assembler.lean ====
section
/-! DEFINITION. The assembler (30_encoding.md R111 to R117): the operations a line expands to, the host loop WAITIDLE, and the
reading of a line of text. Conventions of the text that the spec leaves open are log 18. -/

namespace Sys2Proof.Machine

/-- What a line makes the host do: issue one bus operation, or poll STATUS until BUSY is 0 (R116). -/
inductive HostAct where
  | issue (b : Bow)
  | pollIdle
deriving DecidableEq, Repr

/-- `LE(s)`: byte 0 of `s` in lane 0 (R112). -/
def leWord (s : List Byte) : Word :=
  le32 (s.getD 0 0) (s.getD 1 0) (s.getD 2 0) (s.getD 3 0)

/-- The operation `UPDk` on the data word `v` (R112), for k in 1 to 4. -/
def updInstr (k : Nat) (v : Word) : Option Instr :=
  match k with
  | 1 => some (.upd1 v)
  | 2 => some (.upd2 v)
  | 3 => some (.upd3 v)
  | 4 => some (.upd4 v)
  | _ => none

/-- `UPDATE "s"` (R114): `UPD4` for each four bytes, then one `UPDr` for the `r` bytes left, nothing for none. -/
def updateInstrs (s : List Byte) : List Instr :=
  match s with
  | b0 :: b1 :: b2 :: b3 :: rest => .upd4 (leWord [b0, b1, b2, b3]) :: updateInstrs rest
  | [b0, b1, b2] => [.upd3 (leWord [b0, b1, b2])]
  | [b0, b1] => [.upd2 (leWord [b0, b1])]
  | [b0] => [.upd1 (leWord [b0])]
  | [] => []

/-- `RDDIGEST` (R115): four reads, and in SHA-1 mode the fifth. -/
def rdDigestInstrs (mode : Alg) : List Instr :=
  match mode with
  | .md5 => [.rdDigest0, .rdDigest1, .rdDigest2, .rdDigest3]
  | .sha1 => [.rdDigest0, .rdDigest1, .rdDigest2, .rdDigest3, .rdDigest4]

/-- The INIT of an algorithm. -/
def initInstr (alg : Alg) : Instr :=
  match alg with
  | .md5 => .initMd5
  | .sha1 => .initSha1

/-- `HASH.MD5 "s"` and `HASH.SHA1 "s"` (R117): INIT, UPDATE, FINAL, RDDIGEST. -/
def hashInstrs (alg : Alg) (s : List Byte) : List Instr :=
  initInstr alg :: updateInstrs s ++ .final :: rdDigestInstrs alg

/-- The bus operations of some instructions. -/
def issueAll (is : List Instr) : List HostAct :=
  is.map fun i => .issue (encode i)

/-- What a line expands to in the current mode `ALG` (R111 to R117); a line the assembler refuses expands to nothing
(`none`). -/
def AsmLine.expand (mode : Alg) (l : AsmLine) : Option (List HostAct) :=
  if l.wf then
    match l with
    | .op i => some (issueAll [i])
    | .updNum k v => (updInstr k (BitVec.ofNat 32 v)).map fun i => issueAll [i]
    | .updStr k s => (updInstr k (leWord s)).map fun i => issueAll [i]
    | .wr sz off v => some [.issue ⟨sz, true, off, v⟩]
    | .rd sz off => some [.issue ⟨sz, false, off, 0⟩]
    | .update s => some (issueAll (updateInstrs s))
    | .rdDigest => some (issueAll (rdDigestInstrs mode))
    | .waitIdle => some [.pollIdle]
    | .hash alg s => some (issueAll (hashInstrs alg s))
  else none

/-- Whether the last response is STATUS with `STATUS[3] = 0` (R116). -/
def pollSaysIdle (s : State) : Bool :=
  match s.resp with
  | some ⟨.okay, some v⟩ => !v.getLsbD 3
  | _ => false

/-- The polling loop, `polling` while a poll of its own is at the port. A poll is issued when the port is empty, so it is the
last operation answered when the port is empty again. -/
def pollLoop (fuel : Nat) (polling : Bool) (s : State) : Option State :=
  match fuel with
  | 0 => none
  | n + 1 =>
    let issuing := s.port.isEmpty
    match step (if issuing then s.arrive ⟨0, encode .rdStatus⟩ else s) with
    | .next t =>
      if (polling || issuing) && t.port.isEmpty then
        if pollSaysIdle t then some t else pollLoop n false t
      else pollLoop n (polling || issuing) t
    | .fault _ => none
    | .refused _ => none

/-- `WAITIDLE` (R116) on an engine no other master uses: "`RD.STATUS` until STATUS[3] = 0", within `fuel` steps of the engine.
Operations issued before it are answered first; each poll is issued when the one before it has been answered (log 18). -/
def waitIdle (fuel : Nat) (s : State) : Option State :=
  pollLoop fuel false s

/-! Reading a line (R111 to R113). Characters come as a list. -/

/-- The text before a `;` that is not inside a string (R111). -/
def stripComment (inString : Bool) (cs : List Char) : List Char :=
  match cs with
  | [] => []
  | c :: rest =>
    if c = ';' && !inString then []
    else c :: stripComment (if c = '"' then !inString else inString) rest

/-- Whether a character separates words. -/
def isBlank (c : Char) : Bool :=
  c = ' ' || c = '\t'

/-- The text without blanks at its ends. -/
def trim (cs : List Char) : List Char :=
  ((cs.dropWhile isBlank).reverse.dropWhile isBlank).reverse

/-- The value of a digit in a base up to 16. -/
def digit (base : Nat) (c : Char) : Option Nat :=
  let n := c.toUpper.toNat
  let v := if 48 ≤ n ∧ n ≤ 57 then n - 48 else if 65 ≤ n ∧ n ≤ 70 then n - 55 else 16
  if v < base then some v else none

/-- The value of the digits, most significant first, after the value `acc`. -/
def digits (base acc : Nat) (cs : List Char) : Option Nat :=
  match cs with
  | [] => some acc
  | c :: rest =>
    match digit base c with
    | some d => digits base (acc * base + d) rest
    | none => none

/-- A number: `0x` and hexadecimal digits, or decimal digits (R11). -/
def readNumber (cs : List Char) : Option Nat :=
  match cs with
  | [] => none
  | ['0', 'x'] => none
  | '0' :: 'x' :: ds => digits 16 0 ds
  | ds => digits 10 0 ds

/-- The bytes of characters that are one byte each. -/
def charBytes (cs : List Char) : Option (List Byte) :=
  match cs with
  | [] => some []
  | c :: rest =>
    if c.toNat < 256 && c ≠ '"' then (charBytes rest).map fun bs => BitVec.ofNat 8 c.toNat :: bs else none

/-- A string in double quotes (R112). -/
def readString (cs : List Char) : Option (List Byte) :=
  match cs with
  | '"' :: rest =>
    match rest.reverse with
    | '"' :: body => charBytes body.reverse
    | _ => none
  | _ => none

/-- Hexadecimal bytes, two digits each, in stream order (R114). -/
def hexBytes (cs : List Char) : Option (List Byte) :=
  match cs with
  | [] => some []
  | [_] => none
  | hi :: lo :: rest =>
    match digits 16 0 [hi, lo], hexBytes rest with
    | some v, some bs => some (BitVec.ofNat 8 v :: bs)
    | _, _ => none

/-- The operations that take no operand, by name (R112). -/
def namedOps : List (List Char × Instr) :=
  [ ("NOP".toList, .nop), ("INIT.MD5".toList, .initMd5), ("INIT.SHA1".toList, .initSha1), ("FINAL".toList, .final),
    ("RD.ID".toList, .rdId), ("RD.CMD".toList, .rdCmd), ("RD.STATUS".toList, .rdStatus), ("RD.CAUSE".toList, .rdCause),
    ("RD.DATA1".toList, .rdData1), ("RD.DATA2".toList, .rdData2), ("RD.DATA3".toList, .rdData3),
    ("RD.DATA4".toList, .rdData4) ] ++
  [ ("RD.STATE0".toList, .rdState0), ("RD.STATE1".toList, .rdState1), ("RD.STATE2".toList, .rdState2),
    ("RD.STATE3".toList, .rdState3), ("RD.STATE4".toList, .rdState4), ("RD.ERRDATA".toList, .rdErrData),
    ("RD.LENLO".toList, .rdLenLo), ("RD.LENHI".toList, .rdLenHi), ("RD.DIGEST0".toList, .rdDigest0),
    ("RD.DIGEST1".toList, .rdDigest1), ("RD.DIGEST2".toList, .rdDigest2), ("RD.DIGEST3".toList, .rdDigest3),
    ("RD.DIGEST4".toList, .rdDigest4) ]

/-- SZ by its letter: `b` = 0, `h` = 1, `w` = 2, `o` = 3 (R113). -/
def sizeLetter (c : Char) : Option (BitVec 2) :=
  if c = 'B' then some 0
  else if c = 'H' then some 1
  else if c = 'W' then some 2
  else if c = 'O' then some 3
  else none

/-- An offset in the window. -/
def readOffset (cs : List Char) : Option (BitVec 7) :=
  match readNumber cs with
  | some n => if n < 128 then some (BitVec.ofNat 7 n) else none
  | none => none

/-- `UPDk` with its operand, a string or a number (R112). -/
def readUpd (k : Nat) (operand : List Char) : Option AsmLine :=
  match readString operand with
  | some s => some (.updStr k s)
  | none => (readNumber operand).map fun v => .updNum k v

/-- `UPDATE "s"` or `UPDATE 0x<hex bytes>` (R114). -/
def readUpdate (operand : List Char) : Option AsmLine :=
  match readString operand with
  | some s => some (.update s)
  | none =>
    match operand with
    | '0' :: 'x' :: ds => (hexBytes ds).map AsmLine.update
    | _ => none

/-- `WR.<sz> off, v` (R113). -/
def readWr (letter : Char) (operand : List Char) : Option AsmLine :=
  match sizeLetter letter, operand.dropWhile (· ≠ ',') with
  | some sz, ',' :: rest =>
    match readOffset (trim (operand.takeWhile (· ≠ ','))), readNumber (trim rest) with
    | some off, some v => if v < 2 ^ 32 then some (.wr sz off (BitVec.ofNat 32 v)) else none
    | _, _ => none
  | _, _ => none

/-- `RD.<sz> off` (R113). -/
def readRd (letter : Char) (operand : List Char) : Option AsmLine :=
  match sizeLetter letter, readOffset operand with
  | some sz, some off => some (.rd sz off)
  | _, _ => none

/-- A line by its mnemonic, in capitals, and its operand (R111 to R117). -/
def readForm (mnemonic operand : List Char) : Option AsmLine :=
  match mnemonic with
  | ['U', 'P', 'D', '1'] => readUpd 1 operand
  | ['U', 'P', 'D', '2'] => readUpd 2 operand
  | ['U', 'P', 'D', '3'] => readUpd 3 operand
  | ['U', 'P', 'D', '4'] => readUpd 4 operand
  | ['U', 'P', 'D', 'A', 'T', 'E'] => readUpdate operand
  | ['W', 'R', '.', c] => readWr c operand
  | ['R', 'D', '.', c] => readRd c operand
  | ['H', 'A', 'S', 'H', '.', 'M', 'D', '5'] => (readString operand).map (AsmLine.hash .md5)
  | ['H', 'A', 'S', 'H', '.', 'S', 'H', 'A', '1'] => (readString operand).map (AsmLine.hash .sha1)
  | ['R', 'D', 'D', 'I', 'G', 'E', 'S', 'T'] => if operand.isEmpty then some .rdDigest else none
  | ['W', 'A', 'I', 'T', 'I', 'D', 'L', 'E'] => if operand.isEmpty then some .waitIdle else none
  | name => if operand.isEmpty then (namedOps.lookup name).map AsmLine.op else none

/-- Reads one line (R111): `none` if the assembler refuses it, `some none` for a line with nothing but a comment. Mnemonics
are case-insensitive. -/
def readLine (cs : List Char) : Option (Option AsmLine) :=
  let code := trim (stripComment false cs)
  if code.isEmpty then some none
  else
    match readForm ((code.takeWhile fun c => !isBlank c).map Char.toUpper) (trim (code.dropWhile fun c => !isBlank c)) with
    | some l => if l.wf then some (some l) else none
    | none => none

end Sys2Proof.Machine
end

