-- ==== Sys2Proof/Machine/Platform.lean ====
section
/-! DEFINITION. The platform around the engine, as far as the spec gives it: bus primitives (00_scope.md R15), the window at `BASE`
(20_memory.md R70, R83, R85), `NUM_ENGINES` independent instances (60_exceptions.md R319), and which accesses reach one
(R316). `BASE` and `NUM_ENGINES` (R10) are arguments here: the bases, and the length of the list. -/

namespace Sys2Proof.Machine

/-- One access on the platform bus. `path` is the bus path it takes: the spec names "the same path" (R340) and does not say
what a path is, so each access carries the number of its path, and two masters may share one (DESIGN CHOICE, log 10). `size` is
in bytes; `whole` is false when a byte enable is off (30_encoding.md R100). -/
structure BusAccess where
  master : Nat
  path : Nat
  mode : Nat
  addr : Nat
  size : Nat
  whole : Bool
  write : Bool
  data : Word
deriving DecidableEq, Repr

/-- `MemRead(addr, n)` (R15). -/
def memRead (master path mode addr n : Nat) : BusAccess :=
  ⟨master, path, mode, addr, n, true, false, 0⟩

/-- `MemWrite(addr, n, v)` (R15). -/
def memWrite (master path mode addr n : Nat) (v : Word) : BusAccess :=
  ⟨master, path, mode, addr, n, true, true, v⟩

/-- SZ of an access (30_encoding.md R100): "3 = any other size or a 4-byte access with a byte enable off". -/
def accessSz (n : Nat) (whole : Bool) : BitVec 2 :=
  match n with
  | 1 => 0
  | 2 => 1
  | 4 => if whole then 2 else 3
  | _ => 3

/-- The window of an instance: `BASE` to `BASE + 0x7F` (20_memory.md R70). -/
def inWindow (base addr : Nat) : Bool :=
  decide (base ≤ addr) && decide (addr < base + 128)

/-- The bus operation word of an access, with `OFF = addr - BASE` (R15, 30_encoding.md R100). -/
def BusAccess.bow (base : Nat) (a : BusAccess) : Bow where
  sz := accessSz a.size a.whole
  w := a.write
  off := BitVec.ofNat 7 (a.addr - base)
  data := if a.write then a.data else 0

/-- One engine instance at its own `BASE`, with its own complete state (R319). -/
structure EngineInstance where
  base : Nat
  engine : State
deriving DecidableEq, Repr

/-- The instances of a platform; `NUM_ENGINES` is the length. -/
abbrev Platform := List EngineInstance

/-- `NUM_ENGINES` is at least 1, each `BASE` is a multiple of 128 (R10, R83), and "Each has its own window" (R319). -/
abbrev Platform.wf (p : Platform) : Prop :=
  p ≠ [] ∧ (∀ e ∈ p, e.base % 128 = 0) ∧ (p.map EngineInstance.base).Pairwise (· ≠ ·)

/-- An access reaches the host port of the instance whose window holds its address, if its master may reach it (R316);
"Addresses outside the window belong to the platform and do not reach the engine" (R83). The request keeps the path of the
access (log 10). -/
def Platform.issue (a : BusAccess) (p : Platform) : Platform :=
  p.map fun e =>
    if Config.accessPolicy a.master a.mode e.base && inWindow e.base a.addr then
      { e with engine := e.engine.arrive ⟨a.path, a.bow e.base⟩ }
    else e

/-- One step of the instance at `base`; the others keep their state (R319). The free values a step draws depend on the state of
its instance and not on which instance it is: two instances in the same state take the same step (DESIGN CHOICE, log 22). -/
def Platform.stepAt (base : Nat) (p : Platform) : Platform :=
  p.map fun e =>
    if e.base = base then
      match step e.engine with
      | .next s => { e with engine := s }
      | .fault _ => e
      | .refused _ => e
    else e

end Sys2Proof.Machine
end

