-- ==== Sys2Proof/Safety.lean ====
section
/-! DEFINITION. What claims are stated in: the invariants of the engine (10_state.md R57), the record an error leaves (60_exceptions.md
R302), when the digest registers hold a digest (R323), a run of the engine, and the digest of a byte string written without
buffer, queue or chunks (R236, R237), which the streaming engine must agree with. -/

namespace Sys2Proof.Machine

/-! The invariants of R57. -/

/-- Every 64-byte memory is in canonical form (log 9). -/
abbrev State.MemoriesWf (s : State) : Prop :=
  Memory.wf s.buf ∧ ∀ m ∈ s.pq, Memory.wf m

/-- R57 (b): "In UNINIT, READY and ACCUM, `FILL = LEN mod 64`." -/
abbrev State.FillCountsLen (s : State) : Prop :=
  s.life ≠ .final → s.fill.toNat = s.len.toNat % 64

/-- R57 (c), with BUF, which only UPDk fills (R35). -/
abbrev State.UninitIsReset (s : State) : Prop :=
  s.life = .uninit → s.h = ⟨0, 0, 0, 0, 0⟩ ∧ s.fill = 0 ∧ s.len = 0 ∧ s.alg = .md5 ∧ s.pq = [] ∧ s.buf = Memory.zero

/-- R57 (d), with "bytes at and above `FILL` hold zero after INIT" (R35). -/
abbrev State.ReadyIsFresh (s : State) : Prop :=
  s.life = .ready → s.fill = 0 ∧ s.len = 0 ∧ s.pq = [] ∧ s.h = initialValue s.alg ∧ s.buf = Memory.zero

/-- R57 (e), the part a state can show, with "`BUF` is all zero" (R238). -/
abbrev State.FinalIsEmpty (s : State) : Prop :=
  s.life = .final → s.fill = 0 ∧ s.buf = Memory.zero

/-- R57 (f). -/
abbrev State.QueueShort (s : State) : Prop :=
  s.pq.length ≤ 2

/-- R57 (g). -/
abbrev State.Md5FifthWordZero (s : State) : Prop :=
  s.alg = .md5 → s.h.h4 = 0

/-- The invariants of R57 together. (a) `FILL < 64` is the type of the field. -/
abbrev State.Inv (s : State) : Prop :=
  s.MemoriesWf ∧ s.FillCountsLen ∧ s.UninitIsReset ∧ s.ReadyIsFresh ∧ s.FinalIsEmpty ∧ s.QueueShort ∧ s.Md5FifthWordZero

/-! The error record. -/

/-- The offsets of CMD and DATA1 to DATA4. -/
def isCommandOffset (off : BitVec 7) : Bool :=
  off == 0x04 || off == 0x10 || off == 0x14 || off == 0x18 || off == 0x1C

/-- The record of `ERR`, `CAUSE` and `ERRDATA` that R302 and R308 allow: nothing while ERR = 0; else a code in 1 to 5 with the
EOFF and EW its row gives, and data 0 for a read. -/
abbrev State.ErrorRecordLegal (s : State) : Prop :=
  (s.err = false → s.cause = ⟨false, 0, .none⟩ ∧ s.errData = 0) ∧
  (s.err = true →
    s.cause.code ≠ .none ∧
    (s.cause.ew = false → s.errData = 0) ∧
    (s.cause.code = .illegalCmd → s.cause.eoff = 0x04 ∧ s.cause.ew = true) ∧
    (s.cause.code = .notInit → isCommandOffset s.cause.eoff = true ∧ s.cause.ew = true) ∧
    (s.cause.code = .finalized → isCommandOffset s.cause.eoff = true ∧ s.cause.ew = true) ∧
    (s.cause.code = .badOffset → s.cause.eoff.toNat % 4 = 0 ∧
      (s.cause.ew = true → isCommandOffset s.cause.eoff = false) ∧
      (s.cause.ew = false → 0x54 ≤ s.cause.eoff.toNat)))

/-! Digests. -/

/-- The premises under which the digest registers hold the digest of the stream (R323, R343): no recorded error, `STATE = FINAL`,
and every block retired. -/
abbrev State.DigestValid (s : State) : Prop :=
  s.err = false ∧ s.life = .final ∧ s.pq = []

/-- The zero bytes between the marker and the length field of a message of `n` bytes (43_finalize.md R231, R232). -/
def zeroFill (n : Nat) : Nat :=
  (119 - n % 64) % 64

/-- A message with its padding: marker 0x80, zero fill, encoded bit length (00_scope.md Glossary, R231 to R234). -/
def paddedMessage (alg : Alg) (x : List Byte) : List Byte :=
  x ++ 0x80 :: List.replicate (zeroFill x.length) 0 ++ lengthField alg (BitVec.ofNat 64 x.length)

/-- Byte `j` of block `k` of a padded message. -/
def blockByte (p : List Byte) (k j : Nat) : Byte :=
  p.getD (64 * k + j) 0

/-- The chaining value of a whole byte string: every 64-byte block of the padded message, in order (R236, R237). -/
def hashChain (alg : Alg) (x : List Byte) : Chain :=
  let p := paddedMessage alg x
  (List.range (p.length / 64)).foldl (fun h k => compress alg h (blockByte p k)) (initialValue alg)

/-- The digest of a byte string (R237). -/
def hashDigest (alg : Alg) (x : List Byte) : List Byte :=
  digestBytes alg (hashChain alg x)

/-! Runs. -/

/-- The step from `s` accepts an operation that decodes to `i`. -/
abbrev State.Accepts (s : State) (i : Instr) : Prop :=
  ∃ r rest, nextAction s = .accept r rest ∧ decode r.bow = .ok i

/-- Two engines that differ at most in the bytes of BUF at and above FILL, which "a model may therefore treat ... as any value"
(10_state.md R35, U6). -/
abbrev State.SameButStale (s t : State) : Prop :=
  t = { s with buf := t.buf } ∧ ∀ a < s.fill.toNat, Memory.read s.buf a = Memory.read t.buf a

/-- `n` steps from `s`; the state stays where it is if a step does not answer one (no step of this engine does that). -/
def runSteps (n : Nat) (s : State) : State :=
  match n with
  | 0 => s
  | k + 1 =>
    match step s with
    | .next t => runSteps k t
    | .fault _ => s
    | .refused _ => s

/-- One host's requests for some operations, in order, on path `path`. -/
def requests (path : Nat) (is : List Instr) : List Request :=
  is.map fun i => ⟨path, encode i⟩

/-- The data writes (42_stream_commands.md R206 to R209). -/
def isDataWrite (i : Instr) : Bool :=
  match i with
  | .upd1 _ | .upd2 _ | .upd3 _ | .upd4 _ => true
  | .nop | .initMd5 | .initSha1 | .final => false
  | .rdId | .rdCmd | .rdStatus | .rdCause | .rdErrData => false
  | .rdData1 | .rdData2 | .rdData3 | .rdData4 => false
  | .rdState0 | .rdState1 | .rdState2 | .rdState3 | .rdState4 => false
  | .rdLenLo | .rdLenHi => false
  | .rdDigest0 | .rdDigest1 | .rdDigest2 | .rdDigest3 | .rdDigest4 => false

/-- The bytes some data writes append, in order (R210). -/
def streamBytes (is : List Instr) : List Byte :=
  is.flatMap fun i => dataBytes (encode i)

end Sys2Proof.Machine
end

