-- ==== Sys2Proof/Certificates/Slice0/Obligations.lean ====
section
/-! DEFINITION. The statements for the provers. Each comes from the rules its docstring names. -/

open Sys2Proof Sys2Proof.Machine

/-! Reset. -/

/-- 10_state.md R58, 70_reset_and_hazards.md R346: what reset leaves in every register the spec names. -/
def Obligations.ResetLeavesTheStatedValues : Prop :=
  State.reset.h = ⟨0, 0, 0, 0, 0⟩ ∧ (∀ a, Memory.read State.reset.buf a = 0) ∧ State.reset.fill = 0 ∧
    State.reset.len = 0 ∧ State.reset.alg = .md5 ∧ State.reset.life = .uninit ∧ State.reset.err = false ∧
    causeWord State.reset.cause = 0 ∧ State.reset.errData = 0 ∧ State.reset.pq = [] ∧ State.reset.busy = false ∧
    statusWord State.reset = 0

/-- 10_state.md R58 (70_reset_and_hazards.md R345): the reset event comes before anything else, sets every register to the
value the table gives, and discards the queued blocks. -/
def Obligations.ResetInputClearsTheEngine : Prop :=
  ∀ s, s.resetIn = true → ∃ t, step s = .next t ∧
    t.h = ⟨0, 0, 0, 0, 0⟩ ∧ (∀ a, Memory.read t.buf a = 0) ∧ t.fill = 0 ∧ t.len = 0 ∧ t.alg = .md5 ∧ t.life = .uninit ∧
    t.err = false ∧ t.cause = ⟨false, 0, .none⟩ ∧ t.errData = 0 ∧ t.pq = [] ∧ t.busy = false

/-- 70_reset_and_hazards.md R345: "The operation being performed, and any held operation, is not performed." That they leave the
port and get no response, and that the reset input is back at rest after the event, is the model's choice (log 7, log 8). -/
def Obligations.ResetDropsTheWaitingOperations : Prop :=
  ∀ s, s.resetIn = true → ∃ t, step s = .next t ∧ t.port = [] ∧ t.resp = none ∧ t.resetIn = false

/-- The invariants hold at reset (10_state.md R57, 60_exceptions.md R308). -/
def Obligations.ResetMeetsTheInvariants : Prop :=
  State.reset.Inv ∧ State.reset.ErrorRecordLegal

/-! Encoding. -/

/-- 30_encoding.md R107: words written out from the operation map decode to their operations. -/
def Obligations.WrittenOutWordsDecode : Prop :=
  decodeWord 0b101000010000000000000000000000000000000000 = .ok .nop ∧
    decodeWord 0b101000010000000000000000000000000000000001 = .ok .initMd5 ∧
    decodeWord 0b101000010000000000000000000000000100000001 = .ok .initSha1 ∧
    decodeWord 0b101000010000000000000000000000000000000010 = .ok .final ∧
    decodeWord 0b101001100000000000011000110110001001100001 = .ok (.upd3 0x00636261) ∧
    decodeWord 0b100000100000000000000000000000000000000000 = .ok .rdStatus ∧
    decodeWord 0b100011010000000000000000000000000000000000 = .ok .rdErrData ∧
    decodeWord 0b100101000000000000000000000000000000000000 = .ok .rdDigest4

/-- 30_encoding.md R100, R105, R107: no bit of an operation is lost: every operation, with every operand, is what its 42-bit
word decodes to. -/
def Obligations.EveryOperationDecodesFromItsWord : Prop :=
  ∀ i : Instr, decodeWord (encodeWord i) = .ok i

/-- 30_encoding.md R105, R109: a word that decodes to a write is that operation's only word; a word that decodes to a read
differs from the operation's word in the ignored DATA field only. -/
def Obligations.DecodedWordsEncodeBack : Prop :=
  ∀ (v : BitVec 42) (i : Instr), decodeWord v = .ok i →
    (i.isWrite = true → encodeWord i = v) ∧
    (i.isWrite = false → encodeWord i = v &&& 0x3FF00000000)

/-- 30_encoding.md R107: decoding (written from R105) gives an operation exactly for the words its row of the operation map
matches, and "No two rows match the same BOW." -/
def Obligations.DecodingFollowsTheOperationMap : Prop :=
  (∀ (v : BitVec 42), ∀ row ∈ opcodeRows,
    (v &&& row.mask = row.matchBits ↔ ∃ i, decodeWord v = .ok i ∧ i.mnemonic = row.mnemonic)) ∧
  (∀ (v : BitVec 42), (opcodeRows.filter fun row => v &&& row.mask == row.matchBits).length ≤ 1)

/-- 30_encoding.md R106: the legal command words are exactly four, and every other word written to CMD is ILLEGAL_CMD. -/
def Obligations.FourCommandWordsAreLegal : Prop :=
  ∀ d : Word,
    (decode ⟨2, true, 0x04, d⟩ = .ok .nop ↔ d = 0x00000000) ∧
    (decode ⟨2, true, 0x04, d⟩ = .ok .initMd5 ↔ d = 0x00000001) ∧
    (decode ⟨2, true, 0x04, d⟩ = .ok .initSha1 ↔ d = 0x00000101) ∧
    (decode ⟨2, true, 0x04, d⟩ = .ok .final ↔ d = 0x00000002) ∧
    (decode ⟨2, true, 0x04, d⟩ = .error .illegalCmd ↔
      d ≠ 0x00000000 ∧ d ≠ 0x00000001 ∧ d ≠ 0x00000101 ∧ d ≠ 0x00000002)

/-- 30_encoding.md R108, 60_exceptions.md R309: which words are rejected, and by which name; the shape of the access comes
before its offset, the offset before the command word. -/
def Obligations.IllegalWordsAreRejectedByName : Prop :=
  ∀ b : Bow,
    (decode b = .error .badAccess ↔ b.sz ≠ 2 ∨ b.off.toNat % 4 ≠ 0) ∧
    (decode b = .error .badOffset ↔
      b.sz = 2 ∧ b.off.toNat % 4 = 0 ∧
        (if b.w then b.off.toNat ∉ [0x04, 0x10, 0x14, 0x18, 0x1C] else 0x54 ≤ b.off.toNat)) ∧
    (decode b = .error .illegalCmd ↔
      b.sz = 2 ∧ b.w = true ∧ b.off = 0x04 ∧
        b.data ∉ [(0x00000000 : Word), 0x00000001, 0x00000101, 0x00000002])

/-! A step. -/

/-- 20_memory.md R81, R86; 30_encoding.md R105: a step runs the operation its request decodes to. With the queue empty the
oldest request leaves the port and its operation runs on the state; while busy a free one may run first, counted by the
model's `raced` (log 3), or the core's retire comes first. -/
def Obligations.StepRunsTheDecodedOperation : Prop :=
  ∀ (s : State) (r : Request) (rest : List Request) (i : Instr),
    s.resetIn = false → s.port = r :: rest → decode r.bow = .ok i →
      (s.pq = [] → step s = exec i { s with port := rest }) ∧
      (s.pq ≠ [] → free r.bow = true →
        step s = .next (retire s) ∨ step s = exec i { s with port := rest, raced := s.raced + 1 })

/-- 60_exceptions.md R300, R314: no step stops: the engine raises no trap, and every bus operation word has an effect. -/
def Obligations.StepAlwaysGoesOn : Prop :=
  ∀ s : State, ∃ t, step s = .next t

/-- 60_exceptions.md R322: with nothing queued, nothing arrived and no reset, the engine does nothing. -/
def Obligations.IdleEngineDoesNothing : Prop :=
  ∀ s : State, s.resetIn = false → s.pq = [] → s.port = [] → step s = .next s

/-! Commands. -/

/-- 42_stream_commands.md R203: an accepted NOP changes nothing, in any state; only its OKAY response is new. -/
def Obligations.NopChangesNothing : Prop :=
  ∀ s : State, exec .nop s = .next { s with resp := some ⟨.okay, none⟩ }

/-- 42_stream_commands.md R204, R205: what INIT leaves, from every state, and that it leaves the queue and the port alone. -/
def Obligations.InitStartsAStream : Prop :=
  ∀ s : State,
    (∃ t, exec .initMd5 s = .next t ∧ t.alg = .md5 ∧
      t.h = ⟨0x67452301, 0xefcdab89, 0x98badcfe, 0x10325476, 0x00000000⟩ ∧ (∀ a, Memory.read t.buf a = 0) ∧
      t.fill = 0 ∧ t.len = 0 ∧ t.life = .ready ∧ t.err = false ∧ causeWord t.cause = 0 ∧ t.errData = 0 ∧
      t.resp = some ⟨.okay, none⟩ ∧ t.pq = s.pq ∧ t.port = s.port ∧ t.resetIn = s.resetIn ∧
      (s.pq = [] → statusWord t = 0x00000001)) ∧
    (∃ t, exec .initSha1 s = .next t ∧ t.alg = .sha1 ∧
      t.h = ⟨0x67452301, 0xefcdab89, 0x98badcfe, 0x10325476, 0xc3d2e1f0⟩ ∧ (∀ a, Memory.read t.buf a = 0) ∧
      t.fill = 0 ∧ t.len = 0 ∧ t.life = .ready ∧ t.err = false ∧ causeWord t.cause = 0 ∧ t.errData = 0 ∧
      t.resp = some ⟨.okay, none⟩ ∧ t.pq = s.pq ∧ t.port = s.port ∧ t.resetIn = s.resetIn ∧
      (s.pq = [] → statusWord t = 0x00000005))

/-- 70_reset_and_hazards.md R348: INIT on a used engine and INIT right after reset leave the same registers. -/
def Obligations.ReinitForgetsTheOldStream : Prop :=
  ∀ (s t u : State) (i : Instr), i = .initMd5 ∨ i = .initSha1 → s.pq = [] →
    exec i s = .next t → exec i State.reset = .next u →
      t.h = u.h ∧ t.buf = u.buf ∧ t.fill = u.fill ∧ t.len = u.len ∧ t.alg = u.alg ∧ t.life = u.life ∧ t.err = u.err ∧
        t.cause = u.cause ∧ t.errData = u.errData ∧ t.pq = u.pq ∧ t.resp = u.resp

/-- 42_stream_commands.md R201, R206 to R209: UPDk in READY or ACCUM appends lanes 0 to k-1 in order, enqueues the block when it
is full and goes on in the next one, counts the bytes, and leaves everything else alone. -/
def Obligations.DataWritesAppendTheirBytes : Prop :=
  ∀ (s : State) (d : Word) (k : Nat) (i : Instr),
    (k, i) ∈ [(1, Instr.upd1 d), (2, .upd2 d), (3, .upd3 d), (4, .upd4 d)] →
    Memory.wf s.buf → s.err = false → s.life = .ready ∨ s.life = .accum →
    ∃ t, exec i s = .next t ∧ t.life = .accum ∧ t.len = s.len + BitVec.ofNat 64 k ∧
      (s.fill.toNat + k < 64 →
        t.fill.toNat = s.fill.toNat + k ∧ t.pq = s.pq ∧
        ∀ a, Memory.read t.buf a =
          if s.fill.toNat ≤ a ∧ a < s.fill.toNat + k then d.extractLsb' (8 * (a - s.fill.toNat)) 8
          else Memory.read s.buf a) ∧
      (64 ≤ s.fill.toNat + k →
        t.fill.toNat = s.fill.toNat + k - 64 ∧
        ∃ blk, t.pq = s.pq ++ [blk] ∧
          (∀ a, Memory.read blk a =
            if s.fill.toNat ≤ a ∧ a < 64 then d.extractLsb' (8 * (a - s.fill.toNat)) 8 else Memory.read s.buf a) ∧
          ∀ a, Memory.read t.buf a =
            if a < s.fill.toNat + k - 64 then d.extractLsb' (8 * (64 - s.fill.toNat + a)) 8 else Memory.read blk a) ∧
      t.h = s.h ∧ t.alg = s.alg ∧ t.err = s.err ∧ t.cause = s.cause ∧ t.errData = s.errData ∧ t.port = s.port ∧
      t.resetIn = s.resetIn ∧ t.resp = some ⟨.okay, none⟩

/-- 42_stream_commands.md R202 (60_exceptions.md R301, R304, R305, R311): what UPDk and FINAL do while ERR = 1, in UNINIT and in
FINAL, and that nothing else changes; in READY and ACCUM they run. The cause names the written register and ERRDATA keeps the
whole word. -/
def Obligations.StreamCommandsPassAGate : Prop :=
  ∀ (s : State) (d : Word) (i : Instr) (off : BitVec 7) (word : Word),
    (i, off, word) ∈ [(Instr.upd1 d, 0x10, d), (.upd2 d, 0x14, d), (.upd3 d, 0x18, d), (.upd4 d, 0x1C, d),
      (.final, 0x04, 0x00000002)] →
    (s.err = true → exec i s = .next { s with resp := some ⟨.okay, none⟩ }) ∧
    (s.err = false → s.life = .uninit →
      exec i s = .next { s with
        err := true, cause := ⟨true, off, .notInit⟩, errData := word, resp := some ⟨.okay, none⟩ }) ∧
    (s.err = false → s.life = .final →
      exec i s = .next { s with
        err := true, cause := ⟨true, off, .finalized⟩, errData := word, resp := some ⟨.okay, none⟩ }) ∧
    (s.err = false → s.life = .ready ∨ s.life = .accum →
      ∃ t, exec i s = .next t ∧ t.err = false ∧ t.life = if i = .final then .final else .accum)

/-- 43_finalize.md R230 to R234, R236, R238: FINAL in READY or ACCUM enqueues one block when FILL <= 55 and two when
FILL >= 56, byte for byte, and leaves H, LEN and ALG alone. Byte `i` of the length field is byte `i` of LEN * 8 in MD5 mode and
byte `7 - i` in SHA-1 mode; the SHA-1 order is a reading of "analogous big-endian" that the spec marks as its own (R234, D7,
general knowledge; log 12). -/
def Obligations.FinalPadsTheStream : Prop :=
  ∀ s : State, Memory.wf s.buf → s.err = false → s.life = .ready ∨ s.life = .accum →
    ∃ t, exec .final s = .next t ∧ t.life = .final ∧ t.fill = 0 ∧ (∀ a, Memory.read t.buf a = 0) ∧
      (s.fill.toNat ≤ 55 → ∃ blk, t.pq = s.pq ++ [blk] ∧ ∀ j, j < 64 → Memory.read blk j =
        if j < s.fill.toNat then Memory.read s.buf j
        else if j = s.fill.toNat then 0x80
        else if j < 56 then 0
        else if s.alg = .md5 then (s.len * 8).extractLsb' (8 * (j - 56)) 8
        else (s.len * 8).extractLsb' (8 * (63 - j)) 8) ∧
      (56 ≤ s.fill.toNat → ∃ blk last, t.pq = s.pq ++ [blk, last] ∧
        (∀ j, j < 64 → Memory.read blk j =
          if j < s.fill.toNat then Memory.read s.buf j else if j = s.fill.toNat then 0x80 else 0) ∧
        ∀ j, j < 64 → Memory.read last j =
          if j < 56 then 0
          else if s.alg = .md5 then (s.len * 8).extractLsb' (8 * (j - 56)) 8
          else (s.len * 8).extractLsb' (8 * (63 - j)) 8) ∧
      t.h = s.h ∧ t.len = s.len ∧ t.alg = s.alg ∧ t.err = s.err ∧ t.cause = s.cause ∧ t.errData = s.errData ∧
      t.port = s.port ∧ t.resetIn = s.resetIn ∧ t.resp = some ⟨.okay, none⟩

/-! Reads. -/

/-- 20_memory.md R82, 60_exceptions.md R310: every read answers OKAY with data and changes nothing else, in every state. -/
def Obligations.ReadsOnlyAnswer : Prop :=
  ∀ (s : State) (i : Instr),
    i ∈ [Instr.rdId, .rdCmd, .rdStatus, .rdCause, .rdData1, .rdData2, .rdData3, .rdData4, .rdState0, .rdState1, .rdState2,
      .rdState3, .rdState4, .rdErrData, .rdLenLo, .rdLenHi, .rdDigest0, .rdDigest1, .rdDigest2, .rdDigest3, .rdDigest4] →
    ∃ v, exec i s = .next { s with resp := some ⟨.okay, some v⟩ }

/-- 44_register_access.md R250, R253 to R260, R266 to R270: the value of each plain register read. -/
def Obligations.RegisterReadValues : Prop :=
  ∀ s : State,
    exec .rdId s = .next { s with resp := some ⟨.okay, some 0x48415348⟩ } ∧
    exec .rdErrData s = .next { s with resp := some ⟨.okay, some s.errData⟩ } ∧
    exec .rdState0 s = .next { s with resp := some ⟨.okay, some s.h.h0⟩ } ∧
    exec .rdState1 s = .next { s with resp := some ⟨.okay, some s.h.h1⟩ } ∧
    exec .rdState2 s = .next { s with resp := some ⟨.okay, some s.h.h2⟩ } ∧
    exec .rdState3 s = .next { s with resp := some ⟨.okay, some s.h.h3⟩ } ∧
    exec .rdState4 s = .next { s with resp := some ⟨.okay, some s.h.h4⟩ } ∧
    exec .rdLenLo s = .next { s with resp := some ⟨.okay, some (s.len.setWidth 32)⟩ } ∧
    exec .rdLenHi s = .next { s with resp := some ⟨.okay, some ((s.len >>> 32).setWidth 32)⟩ } ∧
    exec .rdCmd s = .next { s with resp := some ⟨.okay, some 0⟩ } ∧
    exec .rdData1 s = .next { s with resp := some ⟨.okay, some 0⟩ } ∧
    exec .rdData2 s = .next { s with resp := some ⟨.okay, some 0⟩ } ∧
    exec .rdData3 s = .next { s with resp := some ⟨.okay, some 0⟩ } ∧
    exec .rdData4 s = .next { s with resp := some ⟨.okay, some 0⟩ }

/-- 10_state.md R49, 44_register_access.md R251: the fields of STATUS, bit by bit, and that the read changes nothing. -/
def Obligations.StatusReadShowsEveryFlag : Prop :=
  ∀ s : State, ∃ v, exec .rdStatus s = .next { s with resp := some ⟨.okay, some v⟩ } ∧
    (v.extractLsb' 0 2).toNat = (match s.life with | .uninit => 0 | .ready => 1 | .accum => 2 | .final => 3) ∧
    (v.getLsbD 2 = true ↔ s.alg = .sha1) ∧ (v.getLsbD 3 = true ↔ s.pq ≠ []) ∧ v.getLsbD 4 = s.err ∧
    v.extractLsb' 5 3 = 0 ∧ v.extractLsb' 8 6 = s.fill ∧ v.extractLsb' 14 18 = 0

/-- 10_state.md R50, 44_register_access.md R252: the fields of CAUSE, bit by bit, and that the read changes nothing. -/
def Obligations.CauseReadShowsTheRecord : Prop :=
  ∀ s : State, ∃ v, exec .rdCause s = .next { s with resp := some ⟨.okay, some v⟩ } ∧
    (v.extractLsb' 0 4).toNat = (match s.cause.code with
      | .none => 0 | .illegalCmd => 1 | .notInit => 2 | .finalized => 3 | .badAccess => 4 | .badOffset => 5) ∧
    v.extractLsb' 4 4 = 0 ∧ v.extractLsb' 8 7 = s.cause.eoff ∧ v.getLsbD 15 = s.cause.ew ∧ v.extractLsb' 16 16 = 0

/-- 10_state.md R55, 20_memory.md R77, 44_register_access.md R261 to R265: the byte lanes of DIGEST0 to DIGEST4. In MD5 mode lane
`j` of DIGESTk is byte `j` of H[k], least significant first, and DIGEST4 is 0; in SHA-1 mode it is byte `3 - j`. -/
def Obligations.DigestReadsSerializeH : Prop :=
  ∀ (s : State) (k : Nat) (i : Instr) (word : Word),
    (k, i, word) ∈ [(0, Instr.rdDigest0, s.h.h0), (1, .rdDigest1, s.h.h1), (2, .rdDigest2, s.h.h2), (3, .rdDigest3, s.h.h3),
      (4, .rdDigest4, s.h.h4)] →
    ∃ v, exec i s = .next { s with resp := some ⟨.okay, some v⟩ } ∧
      ∀ j, j < 4 → v.extractLsb' (8 * j) 8 =
        if s.alg = .sha1 then word.extractLsb' (8 * (3 - j)) 8
        else if k = 4 then 0
        else word.extractLsb' (8 * j) 8

/-- 30_encoding.md R115, 43_finalize.md R237: the lanes of the words RDDIGEST reads, in order, are the digest bytes: 16 in MD5
mode, 20 in SHA-1 mode. -/
def Obligations.RdDigestYieldsTheDigest : Prop :=
  ∀ s : State,
    (rdDigestInstrs s.alg).flatMap (fun i =>
      match exec i s with
      | .next t =>
        match t.resp with
        | some ⟨.okay, some v⟩ => [lane v 0, lane v 1, lane v 2, lane v 3]
        | _ => []
      | _ => []) = digestBytes s.alg s.h ∧
    (digestBytes s.alg s.h).length = match s.alg with | .md5 => 16 | .sha1 => 20

/-- 70_reset_and_hazards.md R341, 20_memory.md R82: "Exactly four BOWs are never held": the word reads of ID, STATUS, CAUSE and
ERRDATA. They return the same before and after a retire, but for STATUS[3], which is 1 before it. -/
def Obligations.FreeReadsSeeARetireOnlyInBusy : Prop :=
  (∀ b : Bow, free b = true ↔
    b.sz = 2 ∧ b.w = false ∧ (b.off = 0x00 ∨ b.off = 0x08 ∨ b.off = 0x0C ∨ b.off = 0x34)) ∧
  ∀ s : State, s.pq ≠ [] →
    (∀ i ∈ [Instr.rdId, .rdCause, .rdErrData], ∃ v,
      exec i s = .next { s with resp := some ⟨.okay, some v⟩ } ∧
      exec i (retire s) = .next { retire s with resp := some ⟨.okay, some v⟩ }) ∧
    (∃ v w, exec .rdStatus s = .next { s with resp := some ⟨.okay, some v⟩ } ∧
      exec .rdStatus (retire s) = .next { retire s with resp := some ⟨.okay, some w⟩ } ∧
      v.getLsbD 3 = true ∧ ∀ n, n ≠ 3 → v.getLsbD n = w.getLsbD n)

/-! Errors. -/

/-- 60_exceptions.md R300, R301, R303, R306, R307, R310: an accepted word that decodes to no operation records the first error,
changes no register of the stream, and gets OKAY for ILLEGAL_CMD and a bus error otherwise, with data 0 for a read. -/
def Obligations.IllegalWordsAreRecorded : Prop :=
  ∀ (s : State) (r : Request) (rest : List Request) (e : Reject),
    s.resetIn = false → s.pq = [] → s.port = r :: rest → decode r.bow = .error e →
    ∃ t, step s = .next t ∧ t.err = true ∧
      (s.err = false →
        t.cause.ew = r.bow.w ∧ t.cause.eoff = r.bow.off ∧
        t.cause.code = (match e with
          | .illegalCmd => .illegalCmd | .badAccess => .badAccess | .badOffset => .badOffset) ∧
        t.errData = if r.bow.w then r.bow.data else 0) ∧
      (s.err = true → t.cause = s.cause ∧ t.errData = s.errData) ∧
      t.resp = some (if e = .illegalCmd then ⟨.okay, none⟩ else ⟨.error, if r.bow.w then none else some 0⟩) ∧
      (e = .illegalCmd → t.port = rest) ∧
      t.h = s.h ∧ (∀ a, Memory.read t.buf a = Memory.read s.buf a) ∧ t.fill = s.fill ∧ t.len = s.len ∧ t.alg = s.alg ∧
      t.life = s.life ∧ t.pq = s.pq

/-- 60_exceptions.md R312: INIT.MD5, INIT.SHA1 and reset clear `ERR`, `CAUSE` and `ERRDATA`, and nothing else does, a read of
CAUSE and any write included: until then the record of the first error stays. -/
def Obligations.OnlyInitAndResetClearAnError : Prop :=
  ∀ s t : State, step s = .next t →
    (s.resetIn = true ∨ s.Accepts .initMd5 ∨ s.Accepts .initSha1 →
      t.err = false ∧ t.cause = ⟨false, 0, .none⟩ ∧ t.errData = 0) ∧
    (s.err = true → ¬ (s.resetIn = true ∨ s.Accepts .initMd5 ∨ s.Accepts .initSha1) →
      t.err = true ∧ t.cause = s.cause ∧ t.errData = s.errData)

/-- 60_exceptions.md R311: while ERR = 1 the stream stands still until INIT or reset: no byte is taken, no block is enqueued, no
FINAL ends it. -/
def Obligations.PoisonedStreamStandsStill : Prop :=
  ∀ s t : State, step s = .next t → s.err = true → s.resetIn = false → ¬ s.Accepts .initMd5 → ¬ s.Accepts .initSha1 →
    t.life = s.life ∧ t.len = s.len ∧ t.fill = s.fill ∧ t.alg = s.alg ∧ (∀ a, Memory.read t.buf a = Memory.read s.buf a) ∧
      (t.pq = s.pq ∧ t.h = s.h ∨ ∃ blk, s.pq = blk :: t.pq ∧ t.h = compress s.alg s.h (Memory.read blk))

/-! Rules of the whole machine. -/

/-- 10_state.md R31: "Only three things write `H`": INIT, a retire and reset. -/
def Obligations.OnlyInitRetireAndResetWriteH : Prop :=
  ∀ s t : State, step s = .next t →
    t.h = s.h ∨
    (s.resetIn = true ∧ t.h = ⟨0, 0, 0, 0, 0⟩) ∨
    (s.Accepts .initMd5 ∧ t.h = ⟨0x67452301, 0xefcdab89, 0x98badcfe, 0x10325476, 0x00000000⟩) ∨
    (s.Accepts .initSha1 ∧ t.h = ⟨0x67452301, 0xefcdab89, 0x98badcfe, 0x10325476, 0xc3d2e1f0⟩) ∨
    (∃ blk, s.pq = blk :: t.pq ∧
      t.h = match s.alg with
        | .md5 => compressMd5 s.h (Memory.read blk)
        | .sha1 => compressSha1 s.h (Memory.read blk))

/-- 10_state.md R38: INIT writes ALG, "and nothing else except reset writes it". -/
def Obligations.OnlyInitAndResetWriteAlg : Prop :=
  ∀ s t : State, step s = .next t →
    t.alg = s.alg ∨ (s.resetIn = true ∧ t.alg = .md5) ∨ (s.Accepts .initMd5 ∧ t.alg = .md5) ∨
      (s.Accepts .initSha1 ∧ t.alg = .sha1)

/-- 10_state.md R39: the lifecycle: what enters each state, and that "Only INIT or reset leave" FINAL. -/
def Obligations.LifecycleFollowsItsTable : Prop :=
  ∀ s t : State, step s = .next t →
    (t.life = .uninit → s.life = .uninit ∨ s.resetIn = true) ∧
    (t.life = .ready → s.life = .ready ∨ s.Accepts .initMd5 ∨ s.Accepts .initSha1) ∧
    (t.life = .accum → s.life = .accum ∨
      (s.life = .ready ∧ s.err = false ∧ ∃ i, isDataWrite i = true ∧ s.Accepts i)) ∧
    (t.life = .final → s.life = .final ∨
      ((s.life = .ready ∨ s.life = .accum) ∧ s.err = false ∧ s.Accepts .final)) ∧
    (s.life = .final → t.life = .final ∨ s.resetIn = true ∨ s.Accepts .initMd5 ∨ s.Accepts .initSha1)

/-- 70_reset_and_hazards.md R349: which steps enqueue blocks, and how many: a data write at most one, and only when
FILL + k >= 64; FINAL at most one when FILL <= 55 and two otherwise; everything else none. -/
def Obligations.BlocksEnqueuedPerStep : Prop :=
  ∀ s t : State, step s = .next t → s.resetIn = false →
    t.pq = s.pq ∨ t.pq = s.pq.tail ∨
    (∃ i, isDataWrite i = true ∧ s.Accepts i ∧ 64 ≤ s.fill.toNat + (dataBytes (encode i)).length ∧
      t.pq.length = s.pq.length + 1) ∨
    (s.Accepts .final ∧ t.pq.length = s.pq.length + if s.fill.toNat ≤ 55 then 1 else 2)

/-- 10_state.md R57: the invariants, from every state that meets them: memories in canonical form, (b) to (g). -/
def Obligations.StepKeepsTheInvariants : Prop :=
  ∀ s t : State, s.Inv → step s = .next t → t.Inv

/-- 60_exceptions.md R302, R308: the record of an error is one the table of cause codes allows, after every step. -/
def Obligations.StepKeepsTheErrorRecordLegal : Prop :=
  ∀ s t : State, s.ErrorRecordLegal → step s = .next t → t.ErrorRecordLegal

/-- 10_state.md R35, 43_finalize.md R231, U6: the bytes of BUF at and above FILL are never observed: two engines that differ in
them alone go on differing in them alone, with the same responses, queue and chaining value. -/
def Obligations.StaleBytesAreNeverObserved : Prop :=
  ∀ s t s' t' : State, Memory.wf s.buf → Memory.wf t.buf → s.SameButStale t → step s = .next s' → step t = .next t' →
    s'.SameButStale t'

/-! Hold, retire and fairness. -/

/-- 10_state.md R43: with no operation waiting the core retires the oldest block with the selected algorithm, and changes H
and PQ only (beside the model's counters, log 3). One step leaves the whole result of the compression and no trace of how it was
formed: "Only the result of rule R140 is architectural" (40_md5_transform.md R141; R179 for SHA-1). -/
def Obligations.CoreRetiresTheOldestBlock : Prop :=
  ∀ (s : State) (blk : Memory) (rest : List Memory), s.resetIn = false → s.pq = blk :: rest → s.port = [] →
    ∃ t, step s = .next t ∧ t.pq = rest ∧
      t.h = (match s.alg with
        | .md5 => compressMd5 s.h (Memory.read blk)
        | .sha1 => compressSha1 s.h (Memory.read blk)) ∧
      (∀ a, Memory.read t.buf a = Memory.read s.buf a) ∧ t.fill = s.fill ∧ t.len = s.len ∧ t.alg = s.alg ∧
      t.life = s.life ∧ t.err = s.err ∧ t.cause = s.cause ∧ t.errData = s.errData ∧ t.port = [] ∧ t.resp = s.resp ∧
      t.resetIn = false

/-- 70_reset_and_hazards.md R340, R341: an operation that is not free, "illegal ones included", waits while the queue is
non-empty: the engine's next steps are the retires of the queued blocks, one a step, with the port unchanged, and the operation
is then performed on the drained state: its own rule, or the effect of its error. (Operations behind it on its own path wait
with it, free or not; what a path is, is the model's choice, log 10.) -/
def Obligations.HeldOperationRunsAfterTheRetires : Prop :=
  ∀ (s : State) (r : Request) (rest : List Request),
    s.resetIn = false → s.port = r :: rest → free r.bow = false → (∀ q ∈ rest, free q.bow = false ∨ q.path = r.path) →
    (∀ n, n ≤ s.pq.length →
      (runSteps n s).port = s.port ∧ (runSteps n s).pq = s.pq.drop n ∧ (runSteps n s).resp = s.resp) ∧
    (∀ i, decode r.bow = .ok i → step (runSteps s.pq.length s) = exec i { drain s with port := rest }) ∧
    (∀ e, decode r.bow = .error e →
      step (runSteps s.pq.length s) = .next (rejectEffect e r { drain s with port := rest }))

/-- 70_reset_and_hazards.md R350: weak fairness: whatever free accesses are waiting, the oldest block retires within a bounded
number of steps. The bound is the model's free value (log 3): the statement holds for every value of it. -/
def Obligations.EveryBlockRetires : Prop :=
  ∀ (s : State) (blk : Memory) (rest : List Memory), s.resetIn = false → s.pq = blk :: rest →
    ∃ n, n ≤ Config.retireDelay s.alg s.draws - s.raced + 1 ∧ (runSteps n s).pq = rest ∧
      (runSteps n s).h = compress s.alg s.h (Memory.read blk)

/-- 30_encoding.md R116: WAITIDLE ends, on an engine no other master uses, with every queued block retired; and whatever was
waiting at the port when it began, it ends only on a poll of its own that was answered with STATUS[3] = 0, with nothing queued
and nothing waiting. -/
def Obligations.WaitIdleEnds : Prop :=
  (∀ s : State, s.resetIn = false → s.port = [] →
    ∃ n t, waitIdle n s = some t ∧ t.pq = [] ∧ t.h = (drain s).h ∧ t.life = s.life ∧ t.len = s.len ∧ t.err = s.err) ∧
  (∀ (s t : State) (n : Nat), waitIdle n s = some t →
    t.pq = [] ∧ t.port = [] ∧ t.resp = some ⟨.okay, some (statusWord t)⟩ ∧ (statusWord t).getLsbD 3 = false)

/-! The compression functions. -/

/-- 00_scope.md R12: `rotl(x, n)` moves every bit up by `n`, the top ones to the bottom. -/
def Obligations.RotlMovesEveryBit : Prop :=
  ∀ (x : Word) (n i : Nat), 0 < n → n < 32 → i < 32 →
    rotl x n = (x <<< n) ||| (x >>> (32 - n)) ∧ (rotl x n).getLsbD i = x.getLsbD ((i + 32 - n) % 32)

/-- 40_md5_transform.md R132: the auxiliary functions and what they select, bit by bit. -/
def Obligations.Md5AuxiliaryFunctionsSelect : Prop :=
  ∀ x y z : Word,
    md5FN 0 x y z = z ^^^ (x &&& (y ^^^ z)) ∧ md5FN 1 x y z = y ^^^ (z &&& (x ^^^ y)) ∧
    md5FN 2 x y z = x ^^^ y ^^^ z ∧ md5FN 3 x y z = y ^^^ (x ||| ~~~z) ∧
    (∀ i, (md5FN 0 x y z).getLsbD i = if x.getLsbD i then y.getLsbD i else z.getLsbD i) ∧
    (∀ i, (md5FN 1 x y z).getLsbD i = if z.getLsbD i then x.getLsbD i else y.getLsbD i) ∧
    md5FN 0 0xFFFFFFFF y z = y ∧ md5FN 0 0 y z = z ∧ md5FN 1 x y 0xFFFFFFFF = x ∧ md5FN 1 x y 0 = y ∧
    md5FN 2 x x z = z ∧ md5FN 3 0 0 0 = 0xFFFFFFFF ∧ md5FN 3 x y 0 = ~~~y

/-- 40_md5_transform.md R131, R134 to R139: step `i` forms `b + rotl(a + FN[r](b,c,d) + K[i] + M[g(i)], S[r][i mod 4])` from the
little-endian words of the block, with the tables S (R135) and K (R136) written out, and the registers are added back into the
chaining value after 64 steps. The order of the registers after a step is the spec's reading (R138), the tables are general
knowledge (log 12). -/
def Obligations.Md5StepsAndFeedForward : Prop :=
  ∀ (h : Chain) (blk : Nat → Byte),
    let k : List Word :=
        [0xd76aa478, 0xe8c7b756, 0x242070db, 0xc1bdceee,
         0xf57c0faf, 0x4787c62a, 0xa8304613, 0xfd469501,
         0x698098d8, 0x8b44f7af, 0xffff5bb1, 0x895cd7be,
         0x6b901122, 0xfd987193, 0xa679438e, 0x49b40821] ++
        [0xf61e2562, 0xc040b340, 0x265e5a51, 0xe9b6c7aa,
         0xd62f105d, 0x02441453, 0xd8a1e681, 0xe7d3fbc8,
         0x21e1cde6, 0xc33707d6, 0xf4d50d87, 0x455a14ed,
         0xa9e3e905, 0xfcefa3f8, 0x676f02d9, 0x8d2a4c8a] ++
        [0xfffa3942, 0x8771f681, 0x6d9d6122, 0xfde5380c,
         0xa4beea44, 0x4bdecfa9, 0xf6bb4b60, 0xbebfbc70,
         0x289b7ec6, 0xeaa127fa, 0xd4ef3085, 0x04881d05,
         0xd9d4d039, 0xe6db99e5, 0x1fa27cf8, 0xc4ac5665] ++
        [0xf4292244, 0x432aff97, 0xab9423a7, 0xfc93a039,
         0x655b59c3, 0x8f0ccc92, 0xffeff47d, 0x85845dd1,
         0x6fa87e4f, 0xfe2ce6e0, 0xa3014314, 0x4e0811a1,
         0xf7537e82, 0xbd3af235, 0x2ad7d2bb, 0xeb86d391]
    md5Run h blk 0 = ⟨h.h0, h.h1, h.h2, h.h3⟩ ∧
    (∀ i, i < 64 →
      let r := md5Run h blk i
      let g := if i < 16 then i % 16 else if i < 32 then (5 * i + 1) % 16 else if i < 48 then (3 * i + 5) % 16
        else (7 * i) % 16
      let m := le32 (blk (4 * g)) (blk (4 * g + 1)) (blk (4 * g + 2)) (blk (4 * g + 3))
      let amounts : List Nat := if i < 16 then [7, 12, 17, 22] else if i < 32 then [5, 9, 14, 20]
        else if i < 48 then [4, 11, 16, 23] else [6, 10, 15, 21]
      md5Run h blk (i + 1) =
        ⟨r.d, r.b + rotl (r.a + md5FN (i / 16) r.b r.c r.d + k.getD i 0 + m) (amounts.getD (i % 4) 0), r.b, r.c⟩) ∧
    compressMd5 h blk =
      ⟨h.h0 + (md5Run h blk 64).a, h.h1 + (md5Run h blk 64).b, h.h2 + (md5Run h blk 64).c, h.h3 + (md5Run h blk 64).d,
        h.h4⟩

/-- 41_sha1_transform.md R171, R172: the message schedule: 80 words, the first 16 the big-endian words of the block, each later
one the rotated XOR of four before it. The byte order of the first 16 is a reading the spec marks as its own (R171, D6,
log 12). -/
def Obligations.Sha1ScheduleFollowsItsRecurrence : Prop :=
  ∀ blk : Nat → Byte,
    (sha1Schedule blk).length = 80 ∧
    (∀ j, j < 16 → (sha1Schedule blk).getD j 0 = be32 (blk (4 * j)) (blk (4 * j + 1)) (blk (4 * j + 2)) (blk (4 * j + 3))) ∧
    (∀ t, 16 ≤ t → t < 80 → (sha1Schedule blk).getD t 0 =
      rotl ((sha1Schedule blk).getD (t - 3) 0 ^^^ (sha1Schedule blk).getD (t - 8) 0 ^^^
        (sha1Schedule blk).getD (t - 14) 0 ^^^ (sha1Schedule blk).getD (t - 16) 0) 1)

/-- 41_sha1_transform.md R173, R175 to R177: the round functions are choice, parity, majority, parity, bit by bit; the step and
the feed-forward. -/
def Obligations.Sha1StepsAndFeedForward : Prop :=
  (∀ (b c d : Word) (i : Nat),
    (sha1F 0 b c d).getLsbD i = (if b.getLsbD i then c.getLsbD i else d.getLsbD i) ∧
    (sha1F 1 b c d).getLsbD i = (b.getLsbD i ^^ c.getLsbD i ^^ d.getLsbD i) ∧
    ((sha1F 2 b c d).getLsbD i = true ↔ 2 ≤ (b.getLsbD i).toNat + (c.getLsbD i).toNat + (d.getLsbD i).toNat) ∧
    (sha1F 3 b c d).getLsbD i = (b.getLsbD i ^^ c.getLsbD i ^^ d.getLsbD i)) ∧
  ∀ (h : Chain) (blk : Nat → Byte),
    sha1Run h blk 0 = ⟨h.h0, h.h1, h.h2, h.h3, h.h4⟩ ∧
    (∀ t, t < 80 →
      let r := sha1Run h blk t
      let ks : Word := if t < 20 then 0x5a827999 else if t < 40 then 0x6ed9eba1 else if t < 60 then 0x8f1bbcdc
        else 0xca62c1d6
      sha1Run h blk (t + 1) =
        ⟨rotl r.a 5 + sha1F (t / 20) r.b r.c r.d + r.e + ks + (sha1Schedule blk).getD t 0, r.a, rotl r.b 30, r.c, r.d⟩) ∧
    compressSha1 h blk =
      ⟨h.h0 + (sha1Run h blk 80).a, h.h1 + (sha1Run h blk 80).b, h.h2 + (sha1Run h blk 80).c, h.h3 + (sha1Run h blk 80).d,
        h.h4 + (sha1Run h blk 80).e⟩

/-! Streams. -/

/-- 43_finalize.md R236: "A whole stream of `n` bytes compresses ... `floor((n + 8) / 64) + 1` blocks": the padded message is
exactly that many blocks. -/
def Obligations.PaddedMessageBlockCount : Prop :=
  ∀ (alg : Alg) (x : List Byte), (paddedMessage alg x).length = 64 * ((x.length + 8) / 64 + 1)

/-- 42_stream_commands.md R210: chunking invariance: two ways of writing the same bytes as data writes end, with every block
retired, in the same H, BUF, FILL, LEN and STATE. -/
def Obligations.ChunkingDoesNotMatter : Prop :=
  ∀ (s : State) (path : Nat) (xs ys : List Instr),
    s.resetIn = false → s.pq = [] → s.err = false → s.life = .ready ∨ s.life = .accum →
    (∀ i ∈ xs, isDataWrite i = true) → (∀ i ∈ ys, isDataWrite i = true) → streamBytes xs = streamBytes ys →
    ∃ n m : Nat,
      let u := runSteps n { s with port := requests path xs }
      let v := runSteps m { s with port := requests path ys }
      u.port = [] ∧ v.port = [] ∧ u.pq = [] ∧ v.pq = [] ∧
      u.h = v.h ∧ u.buf = v.buf ∧ u.fill = v.fill ∧ u.len = v.len ∧ u.life = v.life ∧ u.err = false ∧ v.err = false

/-- 43_finalize.md R230 to R238, 60_exceptions.md R323, 70_reset_and_hazards.md R342: the headline. On any engine with an empty
queue, INIT, any data writes and FINAL, issued one behind the other with no waiting, end with no error, STATE = FINAL, every
block retired, and H the chaining value of the bytes written, computed on the whole padded message at once. For fewer than 2^61
bytes that is the standard digest's (R235, U7); the equation holds for every length. The constants, the SHA-1 formulas and byte
orders in it are those the spec marks as general knowledge (log 12). -/
def Obligations.EngineHashesTheStream : Prop :=
  ∀ (s : State) (path : Nat) (alg : Alg) (xs : List Instr),
    s.resetIn = false → s.pq = [] → (∀ i ∈ xs, isDataWrite i = true) →
    s.port = requests path (initInstr alg :: xs ++ [.final]) →
    ∃ n : Nat,
      let u := runSteps n s
      u.port = [] ∧ u.DigestValid ∧ u.alg = alg ∧
      u.len = BitVec.ofNat 64 (streamBytes xs).length ∧ u.h = hashChain alg (streamBytes xs)

/-! The assembler and the platform. -/

/-- 30_encoding.md R114: `UPDATE "s"` is data writes that append exactly the bytes of `s`, `UPD4` for each four of them and one
shorter one for the rest. -/
def Obligations.UpdateLineAppendsItsString : Prop :=
  ∀ s : List Byte,
    (∀ i ∈ updateInstrs s, isDataWrite i = true) ∧ streamBytes (updateInstrs s) = s ∧
    (updateInstrs s).length = (s.length + 3) / 4 ∧
    (∀ i ∈ (updateInstrs s).take (s.length / 4), ∃ d, i = .upd4 d)

/-- 20_memory.md R83, 60_exceptions.md R316, R319, 00_scope.md R15: on a platform with disjoint windows an access that the policy of
its window admits arrives at the instance whose window holds its address, with its offset in that window, and at no other; a step of one
instance steps that one and changes no other. The path an access carries is the model's choice (log 10). That a step which
answers a bus error leaves the other instances' ports alone rests on the model's choice that the host reacts at the answering
instance only (log 23); R319 says that an operation on one instance never changes another, and U19 leaves the host's reaction
open. -/
def Obligations.InstancesAreIndependent : Prop :=
  ∀ (p : Platform) (a : BusAccess), Platform.wf p →
    (∀ (i : Nat) (e : EngineInstance), p[i]? = some e →
      (Platform.issue a p)[i]? = some (
        if Config.accessPolicy a.master a.mode e.base = true ∧ e.base ≤ a.addr ∧ a.addr < e.base + 128 then
          { e with engine := e.engine.arrive ⟨a.path, ⟨accessSz a.size a.whole, a.write, BitVec.ofNat 7 (a.addr % 128),
            if a.write then a.data else 0⟩⟩ }
        else e)) ∧
    (∀ i j : Nat, (Platform.issue a p)[i]? ≠ p[i]? → (Platform.issue a p)[j]? ≠ p[j]? → i = j) ∧
    (∀ (base i : Nat) (e : EngineInstance), p[i]? = some e →
      (e.base ≠ base → (Platform.stepAt base p)[i]? = some e) ∧
      (e.base = base → ∃ t, step e.engine = .next t ∧ (Platform.stepAt base p)[i]? = some { e with engine := t })) ∧
    (∀ base i j : Nat, (Platform.stepAt base p)[i]? ≠ p[i]? → (Platform.stepAt base p)[j]? ≠ p[j]? → i = j) ∧
    (accessSz 1 a.whole = 0 ∧ accessSz 2 a.whole = 1 ∧ accessSz 4 true = 2 ∧ accessSz 4 false = 3 ∧
      ∀ n, n ≠ 1 → n ≠ 2 → n ≠ 4 → accessSz n a.whole = 3)

/-! Hold, on several paths. -/

/-- 70_reset_and_hazards.md R340, R341: a free read is never held: behind held operations of other paths it is accepted before
them, if the core's retire does not come first. That it overtakes them is the model's reading (log 10), the count in `raced` is
the model's own (log 3). -/
def Obligations.FreeReadsOvertakeHeldOperationsOfOtherPaths : Prop :=
  ∀ (s : State) (held rest : List Request) (r : Request) (i : Instr),
    s.resetIn = false → s.pq ≠ [] → s.port = held ++ r :: rest → free r.bow = true → decode r.bow = .ok i →
    (∀ q ∈ held, free q.bow = false ∧ q.path ≠ r.path) →
    step s = .next (retire s) ∨ step s = exec i { s with port := held ++ rest, raced := s.raced + 1 }
end

