-- ==== Sys2Proof/Laws/Decode.lean ====
section
/-! SUPPORT. What a decoded bus operation word looks like (30_encoding.md R105), said once. -/

namespace Sys2Proof

/-- A decoded command word is the command's own word (R106). -/
theorem decodeCmd_cases {d : Word} {i : Instr} (h : decodeCmd d = .ok i) :
    (i = .nop ∧ d = 0) ∨ (i = .initMd5 ∧ d = 1) ∨ (i = .initSha1 ∧ d = 0x101) ∨ (i = .final ∧ d = 2) := by
  unfold decodeCmd at h
  split at h
  · exact absurd h (by simp)
  · rename_i hz
    simp only [not_or, ne_eq, not_not] at hz
    obtain ⟨hz1, hz2⟩ := hz
    have hd : d = (d.extractLsb' 9 23 ++ BitVec.ofBool (d.getLsbD 8) ++ d.extractLsb' 4 4 ++ d.extractLsb' 0 4 :
        BitVec (23 + 1 + 4 + 4)) := by
      apply BitVec.eq_of_getLsbD_eq
      intro n hn
      simp only [BitVec.getLsbD_append, BitVec.getLsbD_extractLsb', BitVec.getLsbD_ofBool]
      by_cases h4 : n < 4
      · simp [h4]
      · by_cases h8 : n - 4 < 4
        · simp [h4, h8]; congr 1; omega
        · by_cases h9 : n - 4 - 4 < 1
          · have : n = 8 := by omega
            subst this; simp
          · simp [h4, h8, h9]
            have : n - 4 - 4 - 1 < 23 := by omega
            simp [this]; congr 1; omega
    rw [hz1, hz2] at hd
    generalize d.extractLsb' 0 4 = op at h hd
    generalize d.getLsbD 8 = al at h hd
    split at h
    · rename_i h1
      cases h
      have : op = 0 := BitVec.eq_of_toNat_eq h1
      subst this
      exact .inl ⟨rfl, hd⟩
    · rename_i h1
      cases h
      have : op = 1 := BitVec.eq_of_toNat_eq h1
      subst this
      exact .inr (.inl ⟨rfl, hd⟩)
    · rename_i h1
      cases h
      have : op = 1 := BitVec.eq_of_toNat_eq h1
      subst this
      exact .inr (.inr (.inl ⟨rfl, hd⟩))
    · rename_i h1
      cases h
      have : op = 2 := BitVec.eq_of_toNat_eq h1
      subst this
      exact .inr (.inr (.inr ⟨rfl, hd⟩))
    · exact absurd h (by simp)

/-- A decoded operation has SZ = 2, the W and OFF of its row and, for a write, the DATA of its word (R107). -/
theorem decode_ok {b : Bow} {i : Instr} (h : decode b = .ok i) :
    b.sz = 2 ∧ b.w = i.isWrite ∧ b.off = i.offset ∧ (i.isWrite = true → b.data = i.data) := by
  unfold decode at h
  split at h
  · exact absurd h (by simp)
  · rename_i hs
    simp only [not_or, ne_eq, not_not] at hs
    refine ⟨hs.1, ?_⟩
    split at h
    · rename_i hw
      rw [hw]
      unfold decodeWrite at h
      split at h <;> rename_i ho
      · have : b.off = 0x04 := BitVec.eq_of_toNat_eq ho
        rw [this]
        rcases decodeCmd_cases h with ⟨rfl, hd⟩ | ⟨rfl, hd⟩ | ⟨rfl, hd⟩ | ⟨rfl, hd⟩ <;> exact ⟨rfl, rfl, fun _ => hd⟩
      all_goals first
        | (cases h; exact ⟨rfl, BitVec.eq_of_toNat_eq ho, fun _ => rfl⟩)
        | cases h
    · rename_i hw
      rw [Bool.not_eq_true] at hw
      rw [hw]
      unfold decodeRead at h
      split at h <;> rename_i ho
      all_goals first
        | (cases h; exact ⟨rfl, BitVec.eq_of_toNat_eq ho, fun hc => absurd hc (by simp [Instr.isWrite])⟩)
        | cases h

/-- A write's word is its encoding. -/
theorem encode_of_decode_write {b : Bow} {i : Instr} (h : decode b = .ok i) (hw : i.isWrite = true) : encode i = b := by
  obtain ⟨h1, h2, h3, h4⟩ := decode_ok h
  obtain ⟨sz, w, off, d⟩ := b
  simp only at h1 h2 h3 h4
  subst h1; subst h2; subst h3
  simp [encode, h4 hw]

end Sys2Proof

namespace Sys2Proof.Machine

/-- A free operation is one of four reads (70_reset_and_hazards.md R341). -/
theorem decode_of_free {b : Bow} (h : free b = true) :
    decode b = .ok .rdId ∨ decode b = .ok .rdStatus ∨ decode b = .ok .rdCause ∨ decode b = .ok .rdErrData := by
  obtain ⟨sz, w, off, d⟩ := b
  unfold free at h
  simp only [Bool.and_eq_true, Bool.not_eq_true', beq_iff_eq, Bool.or_eq_true] at h
  obtain ⟨⟨rfl, rfl⟩, hoff⟩ := h
  rcases hoff with ((rfl | rfl) | rfl) | rfl <;> simp [decode, Bow.aligned, decodeRead]

/-- The bytes of a data write: lanes 0 to k-1 of its word (20_memory.md R73, 30_encoding.md R104). -/
theorem dataBytes_upd1 (d : Word) : dataBytes (encode (.upd1 d)) = [lane d 0] := by
  simp [dataBytes, updCount, encode, Instr.offset, Instr.data]

theorem dataBytes_upd2 (d : Word) : dataBytes (encode (.upd2 d)) = [lane d 0, lane d 1] := by
  simp [dataBytes, updCount, encode, Instr.offset, Instr.data, List.range_succ]

theorem dataBytes_upd3 (d : Word) : dataBytes (encode (.upd3 d)) = [lane d 0, lane d 1, lane d 2] := by
  simp [dataBytes, updCount, encode, Instr.offset, Instr.data, List.range_succ]

theorem dataBytes_upd4 (d : Word) : dataBytes (encode (.upd4 d)) = [lane d 0, lane d 1, lane d 2, lane d 3] := by
  simp [dataBytes, updCount, encode, Instr.offset, Instr.data, List.range_succ]

end Sys2Proof.Machine
end

