-- ==== Sys2Proof/Laws/Memory.lean ====
section
/-! SUPPORT. The laws of the 64-byte memory: read after write, and that writes keep the canonical form. -/

namespace Sys2Proof.Machine

@[simp] theorem Memory.read_zero (a : Nat) : Memory.read Memory.zero a = 0 := rfl

@[simp] theorem Memory.read_nil (a : Nat) : Memory.read [] a = 0 := rfl

theorem Memory.read_cons (k : Nat) (v : Byte) (m : Memory) (a : Nat) :
    Memory.read ((k, v) :: m) a = if k = a then v else Memory.read m a := rfl

theorem Memory.wf_zero : Memory.wf Memory.zero := by
  simp [Memory.wf, Memory.zero]

theorem Memory.wf_tail {c : Host.Cell} {m : Memory} (h : Memory.wf (c :: m)) : Memory.wf m :=
  ⟨(List.pairwise_cons.mp h.1).2, fun d hd => h.2 d (List.mem_cons_of_mem c hd)⟩

theorem Memory.lt_of_wf {c : Host.Cell} {m : Memory} (h : Memory.wf (c :: m)) {d : Host.Cell} (hd : d ∈ m) :
    c.1 < d.1 :=
  (List.pairwise_cons.mp h.1).1 d hd

/-- An address below every listed one reads 0. -/
theorem Memory.read_eq_zero_of_lt {m : Memory} {a : Nat} (h : ∀ c ∈ m, a < c.1) : Memory.read m a = 0 := by
  induction m with
  | nil => rfl
  | cons c m ih =>
    obtain ⟨k, v⟩ := c
    have hk : a < k := h (k, v) (List.mem_cons_self ..)
    rw [Memory.read_cons, if_neg (by omega)]
    exact ih fun d hd => h d (List.mem_cons_of_mem _ hd)

/-- A byte at or above 64 reads 0. -/
theorem Memory.read_eq_zero_of_ge {m : Memory} (h : Memory.wf m) {a : Nat} (ha : 64 ≤ a) : Memory.read m a = 0 := by
  induction m with
  | nil => rfl
  | cons c m ih =>
    obtain ⟨k, v⟩ := c
    have hk : k < 64 := (h.2 (k, v) (List.mem_cons_self ..)).1
    rw [Memory.read_cons, if_neg (by omega)]
    exact ih (Memory.wf_tail h)

/-- Read after write. -/
theorem Memory.read_write {m : Memory} (h : Memory.wf m) (a : Nat) (b : Byte) (a' : Nat) :
    Memory.read (Memory.write m a b) a' = if a = a' then b else Memory.read m a' := by
  induction m with
  | nil =>
    unfold Memory.write
    by_cases hb : b = 0
    · subst hb
      simp
    · rw [if_neg hb, Memory.read_cons]
  | cons c m ih =>
    obtain ⟨k, v⟩ := c
    have hlow : ∀ d ∈ m, k < d.1 := fun d hd => Memory.lt_of_wf h hd
    unfold Memory.write
    split
    · rename_i hak
      split
      · rename_i hb
        split
        · rename_i haa
          subst haa
          rw [hb, Memory.read_eq_zero_of_lt]
          intro d hd
          rcases List.mem_cons.mp hd with rfl | hd
          · exact hak
          · exact Nat.lt_trans hak (hlow d hd)
        · rfl
      · rw [Memory.read_cons]
    · split
      · rename_i hak
        subst hak
        split
        · rename_i hb
          split
          · rename_i haa
            subst haa
            rw [hb]
            exact Memory.read_eq_zero_of_lt hlow
          · rename_i haa
            rw [Memory.read_cons, if_neg haa]
        · rw [Memory.read_cons, Memory.read_cons]
          split <;> rfl
      · rename_i h1 h2
        rw [Memory.read_cons, Memory.read_cons, ih (Memory.wf_tail h)]
        by_cases hk : k = a'
        · rw [if_pos hk, if_pos hk, if_neg (by omega)]
        · rw [if_neg hk, if_neg hk]

/-- Every cell of a written memory is an old cell or the written one, which is not 0. -/
theorem Memory.mem_write {m : Memory} {a : Nat} {b : Byte} {c : Host.Cell} (h : c ∈ Memory.write m a b) :
    c ∈ m ∨ (c = (a, b) ∧ b ≠ 0) := by
  induction m with
  | nil =>
    unfold Memory.write at h
    by_cases hb : b = 0
    · simp [hb] at h
    · rw [if_neg hb] at h
      exact .inr ⟨List.mem_singleton.mp h, hb⟩
  | cons d m ih =>
    obtain ⟨k, v⟩ := d
    unfold Memory.write at h
    by_cases hb : b = 0
    · simp only [hb, if_true] at h ih
      split at h
      · exact .inl h
      · split at h
        · exact .inl (List.mem_cons_of_mem _ h)
        · rcases List.mem_cons.mp h with rfl | h
          · exact .inl (List.mem_cons_self ..)
          · rcases ih h with h | ⟨-, h⟩
            · exact .inl (List.mem_cons_of_mem _ h)
            · exact absurd rfl h
    · simp only [hb, if_false] at h
      split at h
      · rcases List.mem_cons.mp h with rfl | h
        · exact .inr ⟨rfl, hb⟩
        · exact .inl h
      · split at h
        · rcases List.mem_cons.mp h with rfl | h
          · exact .inr ⟨rfl, hb⟩
          · exact .inl (List.mem_cons_of_mem _ h)
        · rcases List.mem_cons.mp h with rfl | h
          · exact .inl (List.mem_cons_self ..)
          · rcases ih h with h | h
            · exact .inl (List.mem_cons_of_mem _ h)
            · exact .inr h

/-- A write inside the 64 bytes keeps the canonical form. -/
theorem Memory.wf_write {m : Memory} (h : Memory.wf m) {a : Nat} (ha : a < 64) (b : Byte) :
    Memory.wf (Memory.write m a b) := by
  refine ⟨?_, fun c hc => ?_⟩
  · induction m with
    | nil =>
      unfold Memory.write
      split <;> simp
    | cons c m ih =>
      obtain ⟨k, v⟩ := c
      have hlow : ∀ d ∈ m, k < d.1 := fun d hd => Memory.lt_of_wf h hd
      unfold Memory.write
      split
      · rename_i hak
        split
        · exact h.1
        · refine List.pairwise_cons.mpr ⟨fun d hd => ?_, h.1⟩
          rcases List.mem_cons.mp hd with rfl | hd
          · exact hak
          · exact Nat.lt_trans hak (hlow d hd)
      · split
        · rename_i hak
          split
          · exact (Memory.wf_tail h).1
          · refine List.pairwise_cons.mpr ⟨fun d hd => ?_, (Memory.wf_tail h).1⟩
            have := hlow d hd
            omega
        · rename_i h1 h2
          refine List.pairwise_cons.mpr ⟨fun d hd => ?_, ih (Memory.wf_tail h)⟩
          rcases Memory.mem_write hd with hd | ⟨rfl, -⟩
          · exact hlow d hd
          · show k < a
            omega
  · rcases Memory.mem_write hc with hc | ⟨rfl, hb⟩
    · exact h.2 c hc
    · exact ⟨ha, hb⟩

/-- Writing consecutive bytes inside the 64 bytes keeps the canonical form. -/
theorem Memory.wf_writeBytes {m : Memory} (h : Memory.wf m) {a : Nat} {bs : List Byte} (ha : a + bs.length ≤ 64) :
    Memory.wf (Memory.writeBytes m a bs) := by
  induction bs generalizing m a with
  | nil => exact h
  | cons b bs ih =>
    simp only [List.length_cons] at ha
    exact ih (Memory.wf_write h (by omega) b) (by omega)

/-- Read after writing consecutive bytes. -/
theorem Memory.read_writeBytes {m : Memory} (h : Memory.wf m) {a : Nat} {bs : List Byte} (ha : a + bs.length ≤ 64)
    (a' : Nat) :
    Memory.read (Memory.writeBytes m a bs) a' =
      if a ≤ a' ∧ a' < a + bs.length then bs.getD (a' - a) 0 else Memory.read m a' := by
  induction bs generalizing m a with
  | nil => rw [if_neg (by simp)]; rfl
  | cons b bs ih =>
    simp only [List.length_cons] at ha ⊢
    rw [Memory.writeBytes, ih (Memory.wf_write h (by omega) b) (by omega), Memory.read_write h]
    by_cases h1 : a = a'
    · subst h1
      rw [if_neg (by omega), if_pos rfl, if_pos (by omega)]
      simp
    · rw [if_neg h1]
      by_cases h2 : a + 1 ≤ a' ∧ a' < a + 1 + bs.length
      · rw [if_pos h2, if_pos (by omega)]
        obtain ⟨d, rfl⟩ : ∃ d, a' = a + 1 + d := ⟨a' - (a + 1), by omega⟩
        rw [show a + 1 + d - (a + 1) = d by omega, show a + 1 + d - a = d + 1 by omega, List.getD_cons_succ]
      · rw [if_neg h2, if_neg (by omega)]

/-- Memories in canonical form that read alike are equal data. -/
theorem Memory.ext_of_wf {m n : Memory} (hm : Memory.wf m) (hn : Memory.wf n)
    (h : ∀ a, Memory.read m a = Memory.read n a) : m = n := by
  have nonzero {c : Host.Cell} {l : Memory} (hl : Memory.wf (c :: l)) : Memory.read (c :: l) c.1 ≠ 0 := by
    obtain ⟨k, v⟩ := c
    rw [Memory.read_cons, if_pos rfl]
    exact (hl.2 (k, v) (List.mem_cons_self ..)).2
  induction m generalizing n with
  | nil =>
    cases n with
    | nil => rfl
    | cons c n => exact absurd (h c.1).symm (nonzero hn)
  | cons c m ih =>
    cases n with
    | nil => exact absurd (h c.1) (nonzero hm)
    | cons d n =>
      have key : c.1 = d.1 := by
        rcases Nat.lt_trichotomy c.1 d.1 with hlt | heq | hgt
        · refine absurd ((h c.1).trans (Memory.read_eq_zero_of_lt fun e he => ?_)) (nonzero hm)
          rcases List.mem_cons.mp he with rfl | he
          · exact hlt
          · exact Nat.lt_trans hlt (Memory.lt_of_wf hn he)
        · exact heq
        · refine absurd ((h d.1).symm.trans (Memory.read_eq_zero_of_lt fun e he => ?_)) (nonzero hn)
          rcases List.mem_cons.mp he with rfl | he
          · exact hgt
          · exact Nat.lt_trans hgt (Memory.lt_of_wf hm he)
      obtain ⟨k, v⟩ := c
      obtain ⟨k', v'⟩ := d
      simp only at key
      subst key
      have hv : v = v' := by
        have := h k
        rwa [Memory.read_cons, Memory.read_cons, if_pos rfl, if_pos rfl] at this
      subst hv
      congr 1
      refine ih (Memory.wf_tail hm) (Memory.wf_tail hn) fun a => ?_
      by_cases hk : k = a
      · subst hk
        rw [Memory.read_eq_zero_of_lt fun e he => Memory.lt_of_wf hm he,
          Memory.read_eq_zero_of_lt fun e he => Memory.lt_of_wf hn he]
      · have := h a
        rwa [Memory.read_cons, Memory.read_cons, if_neg hk, if_neg hk] at this

end Sys2Proof.Machine
end

