-- ==== Sys2Proof/Laws/State.lean ====
section
/-! SUPPORT. One lemma per field per update of the state, so that no proof unfolds a record update. -/

namespace Sys2Proof.Machine

variable (s : State)

/-! The bus response. -/

@[simp] theorem respond_h (r : Response) : (s.respond r).h = s.h := rfl
@[simp] theorem respond_buf (r : Response) : (s.respond r).buf = s.buf := rfl
@[simp] theorem respond_fill (r : Response) : (s.respond r).fill = s.fill := rfl
@[simp] theorem respond_len (r : Response) : (s.respond r).len = s.len := rfl
@[simp] theorem respond_alg (r : Response) : (s.respond r).alg = s.alg := rfl
@[simp] theorem respond_life (r : Response) : (s.respond r).life = s.life := rfl
@[simp] theorem respond_err (r : Response) : (s.respond r).err = s.err := rfl
@[simp] theorem respond_cause (r : Response) : (s.respond r).cause = s.cause := rfl
@[simp] theorem respond_errData (r : Response) : (s.respond r).errData = s.errData := rfl
@[simp] theorem respond_pq (r : Response) : (s.respond r).pq = s.pq := rfl
@[simp] theorem respond_port (r : Response) : (s.respond r).port = s.port := rfl
@[simp] theorem respond_resp (r : Response) : (s.respond r).resp = some r := rfl
@[simp] theorem respond_resetIn (r : Response) : (s.respond r).resetIn = s.resetIn := rfl
@[simp] theorem respond_draws (r : Response) : (s.respond r).draws = s.draws := rfl
@[simp] theorem respond_raced (r : Response) : (s.respond r).raced = s.raced := rfl

/-! OKAY for a write. -/

@[simp] theorem okWrite_h : (s.okWrite).h = s.h := rfl
@[simp] theorem okWrite_buf : (s.okWrite).buf = s.buf := rfl
@[simp] theorem okWrite_fill : (s.okWrite).fill = s.fill := rfl
@[simp] theorem okWrite_len : (s.okWrite).len = s.len := rfl
@[simp] theorem okWrite_alg : (s.okWrite).alg = s.alg := rfl
@[simp] theorem okWrite_life : (s.okWrite).life = s.life := rfl
@[simp] theorem okWrite_err : (s.okWrite).err = s.err := rfl
@[simp] theorem okWrite_cause : (s.okWrite).cause = s.cause := rfl
@[simp] theorem okWrite_errData : (s.okWrite).errData = s.errData := rfl
@[simp] theorem okWrite_pq : (s.okWrite).pq = s.pq := rfl
@[simp] theorem okWrite_port : (s.okWrite).port = s.port := rfl
@[simp] theorem okWrite_resp : (s.okWrite).resp = some ⟨.okay, none⟩ := rfl
@[simp] theorem okWrite_resetIn : (s.okWrite).resetIn = s.resetIn := rfl
@[simp] theorem okWrite_draws : (s.okWrite).draws = s.draws := rfl
@[simp] theorem okWrite_raced : (s.okWrite).raced = s.raced := rfl

/-! OKAY for a read. -/

@[simp] theorem okRead_h (v : Word) : (s.okRead v).h = s.h := rfl
@[simp] theorem okRead_buf (v : Word) : (s.okRead v).buf = s.buf := rfl
@[simp] theorem okRead_fill (v : Word) : (s.okRead v).fill = s.fill := rfl
@[simp] theorem okRead_len (v : Word) : (s.okRead v).len = s.len := rfl
@[simp] theorem okRead_alg (v : Word) : (s.okRead v).alg = s.alg := rfl
@[simp] theorem okRead_life (v : Word) : (s.okRead v).life = s.life := rfl
@[simp] theorem okRead_err (v : Word) : (s.okRead v).err = s.err := rfl
@[simp] theorem okRead_cause (v : Word) : (s.okRead v).cause = s.cause := rfl
@[simp] theorem okRead_errData (v : Word) : (s.okRead v).errData = s.errData := rfl
@[simp] theorem okRead_pq (v : Word) : (s.okRead v).pq = s.pq := rfl
@[simp] theorem okRead_port (v : Word) : (s.okRead v).port = s.port := rfl
@[simp] theorem okRead_resp (v : Word) : (s.okRead v).resp = some ⟨.okay, some v⟩ := rfl
@[simp] theorem okRead_resetIn (v : Word) : (s.okRead v).resetIn = s.resetIn := rfl
@[simp] theorem okRead_draws (v : Word) : (s.okRead v).draws = s.draws := rfl
@[simp] theorem okRead_raced (v : Word) : (s.okRead v).raced = s.raced := rfl

/-! The bus error response. -/

@[simp] theorem busErrorResponse_h (b : Bow) : (s.busErrorResponse b).h = s.h := rfl
@[simp] theorem busErrorResponse_buf (b : Bow) : (s.busErrorResponse b).buf = s.buf := rfl
@[simp] theorem busErrorResponse_fill (b : Bow) : (s.busErrorResponse b).fill = s.fill := rfl
@[simp] theorem busErrorResponse_len (b : Bow) : (s.busErrorResponse b).len = s.len := rfl
@[simp] theorem busErrorResponse_alg (b : Bow) : (s.busErrorResponse b).alg = s.alg := rfl
@[simp] theorem busErrorResponse_life (b : Bow) : (s.busErrorResponse b).life = s.life := rfl
@[simp] theorem busErrorResponse_err (b : Bow) : (s.busErrorResponse b).err = s.err := rfl
@[simp] theorem busErrorResponse_cause (b : Bow) : (s.busErrorResponse b).cause = s.cause := rfl
@[simp] theorem busErrorResponse_errData (b : Bow) : (s.busErrorResponse b).errData = s.errData := rfl
@[simp] theorem busErrorResponse_pq (b : Bow) : (s.busErrorResponse b).pq = s.pq := rfl
@[simp] theorem busErrorResponse_port (b : Bow) : (s.busErrorResponse b).port = s.port := rfl
@[simp] theorem busErrorResponse_resp (b : Bow) : (s.busErrorResponse b).resp = some ⟨.error, if b.w then none else some 0⟩ := rfl
@[simp] theorem busErrorResponse_resetIn (b : Bow) : (s.busErrorResponse b).resetIn = s.resetIn := rfl
@[simp] theorem busErrorResponse_draws (b : Bow) : (s.busErrorResponse b).draws = s.draws := rfl
@[simp] theorem busErrorResponse_raced (b : Bow) : (s.busErrorResponse b).raced = s.raced := rfl

/-! Enqueue. -/

@[simp] theorem enqueue_h (m : Memory) : (enqueue m s).h = s.h := rfl
@[simp] theorem enqueue_buf (m : Memory) : (enqueue m s).buf = s.buf := rfl
@[simp] theorem enqueue_fill (m : Memory) : (enqueue m s).fill = s.fill := rfl
@[simp] theorem enqueue_len (m : Memory) : (enqueue m s).len = s.len := rfl
@[simp] theorem enqueue_alg (m : Memory) : (enqueue m s).alg = s.alg := rfl
@[simp] theorem enqueue_life (m : Memory) : (enqueue m s).life = s.life := rfl
@[simp] theorem enqueue_err (m : Memory) : (enqueue m s).err = s.err := rfl
@[simp] theorem enqueue_cause (m : Memory) : (enqueue m s).cause = s.cause := rfl
@[simp] theorem enqueue_errData (m : Memory) : (enqueue m s).errData = s.errData := rfl
@[simp] theorem enqueue_pq (m : Memory) : (enqueue m s).pq = s.pq ++ [m] := rfl
@[simp] theorem enqueue_port (m : Memory) : (enqueue m s).port = s.port := rfl
@[simp] theorem enqueue_resp (m : Memory) : (enqueue m s).resp = s.resp := rfl
@[simp] theorem enqueue_resetIn (m : Memory) : (enqueue m s).resetIn = s.resetIn := rfl
@[simp] theorem enqueue_draws (m : Memory) : (enqueue m s).draws = s.draws := rfl
@[simp] theorem enqueue_raced (m : Memory) : (enqueue m s).raced = s.raced := rfl

/-! INIT. -/

@[simp] theorem startStream_h (a : Alg) : (startStream a s).h = initialValue a := rfl
@[simp] theorem startStream_buf (a : Alg) : (startStream a s).buf = Memory.zero := rfl
@[simp] theorem startStream_fill (a : Alg) : (startStream a s).fill = 0 := rfl
@[simp] theorem startStream_len (a : Alg) : (startStream a s).len = 0 := rfl
@[simp] theorem startStream_alg (a : Alg) : (startStream a s).alg = a := rfl
@[simp] theorem startStream_life (a : Alg) : (startStream a s).life = .ready := rfl
@[simp] theorem startStream_err (a : Alg) : (startStream a s).err = false := rfl
@[simp] theorem startStream_cause (a : Alg) : (startStream a s).cause = ⟨false, 0, .none⟩ := rfl
@[simp] theorem startStream_errData (a : Alg) : (startStream a s).errData = 0 := rfl
@[simp] theorem startStream_pq (a : Alg) : (startStream a s).pq = s.pq := rfl
@[simp] theorem startStream_port (a : Alg) : (startStream a s).port = s.port := rfl
@[simp] theorem startStream_resp (a : Alg) : (startStream a s).resp = s.resp := rfl
@[simp] theorem startStream_resetIn (a : Alg) : (startStream a s).resetIn = s.resetIn := rfl
@[simp] theorem startStream_draws (a : Alg) : (startStream a s).draws = s.draws := rfl
@[simp] theorem startStream_raced (a : Alg) : (startStream a s).raced = s.raced := rfl

/-! Acceptance. -/

@[simp] theorem takeRequest_h (rest : List Request) : (takeRequest rest s).h = s.h := rfl
@[simp] theorem takeRequest_buf (rest : List Request) : (takeRequest rest s).buf = s.buf := rfl
@[simp] theorem takeRequest_fill (rest : List Request) : (takeRequest rest s).fill = s.fill := rfl
@[simp] theorem takeRequest_len (rest : List Request) : (takeRequest rest s).len = s.len := rfl
@[simp] theorem takeRequest_alg (rest : List Request) : (takeRequest rest s).alg = s.alg := rfl
@[simp] theorem takeRequest_life (rest : List Request) : (takeRequest rest s).life = s.life := rfl
@[simp] theorem takeRequest_err (rest : List Request) : (takeRequest rest s).err = s.err := rfl
@[simp] theorem takeRequest_cause (rest : List Request) : (takeRequest rest s).cause = s.cause := rfl
@[simp] theorem takeRequest_errData (rest : List Request) : (takeRequest rest s).errData = s.errData := rfl
@[simp] theorem takeRequest_pq (rest : List Request) : (takeRequest rest s).pq = s.pq := rfl
@[simp] theorem takeRequest_port (rest : List Request) : (takeRequest rest s).port = rest := rfl
@[simp] theorem takeRequest_resp (rest : List Request) : (takeRequest rest s).resp = s.resp := rfl
@[simp] theorem takeRequest_resetIn (rest : List Request) : (takeRequest rest s).resetIn = s.resetIn := rfl
@[simp] theorem takeRequest_draws (rest : List Request) : (takeRequest rest s).draws = s.draws := rfl
@[simp] theorem takeRequest_raced (rest : List Request) : (takeRequest rest s).raced = if s.busy then s.raced + 1 else s.raced := rfl

/-! The reset event. -/

@[simp] theorem resetEvent_h : (resetEvent s).h = ⟨0, 0, 0, 0, 0⟩ := rfl
@[simp] theorem resetEvent_buf : (resetEvent s).buf = [] := rfl
@[simp] theorem resetEvent_fill : (resetEvent s).fill = 0 := rfl
@[simp] theorem resetEvent_len : (resetEvent s).len = 0 := rfl
@[simp] theorem resetEvent_alg : (resetEvent s).alg = .md5 := rfl
@[simp] theorem resetEvent_life : (resetEvent s).life = .uninit := rfl
@[simp] theorem resetEvent_err : (resetEvent s).err = false := rfl
@[simp] theorem resetEvent_cause : (resetEvent s).cause = ⟨false, 0, .none⟩ := rfl
@[simp] theorem resetEvent_errData : (resetEvent s).errData = 0 := rfl
@[simp] theorem resetEvent_pq : (resetEvent s).pq = [] := rfl
@[simp] theorem resetEvent_port : (resetEvent s).port = [] := rfl
@[simp] theorem resetEvent_resp : (resetEvent s).resp = none := rfl
@[simp] theorem resetEvent_resetIn : (resetEvent s).resetIn = false := rfl
@[simp] theorem resetEvent_draws : (resetEvent s).draws = s.draws + 1 := rfl
@[simp] theorem resetEvent_raced : (resetEvent s).raced = 0 := rfl

/-! A request arrives. -/

@[simp] theorem arrive_h (r : Request) : (s.arrive r).h = s.h := rfl
@[simp] theorem arrive_buf (r : Request) : (s.arrive r).buf = s.buf := rfl
@[simp] theorem arrive_fill (r : Request) : (s.arrive r).fill = s.fill := rfl
@[simp] theorem arrive_len (r : Request) : (s.arrive r).len = s.len := rfl
@[simp] theorem arrive_alg (r : Request) : (s.arrive r).alg = s.alg := rfl
@[simp] theorem arrive_life (r : Request) : (s.arrive r).life = s.life := rfl
@[simp] theorem arrive_err (r : Request) : (s.arrive r).err = s.err := rfl
@[simp] theorem arrive_cause (r : Request) : (s.arrive r).cause = s.cause := rfl
@[simp] theorem arrive_errData (r : Request) : (s.arrive r).errData = s.errData := rfl
@[simp] theorem arrive_pq (r : Request) : (s.arrive r).pq = s.pq := rfl
@[simp] theorem arrive_port (r : Request) : (s.arrive r).port = s.port ++ [r] := rfl
@[simp] theorem arrive_resp (r : Request) : (s.arrive r).resp = s.resp := rfl
@[simp] theorem arrive_resetIn (r : Request) : (s.arrive r).resetIn = s.resetIn := rfl
@[simp] theorem arrive_draws (r : Request) : (s.arrive r).draws = s.draws := rfl
@[simp] theorem arrive_raced (r : Request) : (s.arrive r).raced = s.raced := rfl

/-! The reset input. -/

@[simp] theorem assertReset_h : (s.assertReset).h = s.h := rfl
@[simp] theorem assertReset_buf : (s.assertReset).buf = s.buf := rfl
@[simp] theorem assertReset_fill : (s.assertReset).fill = s.fill := rfl
@[simp] theorem assertReset_len : (s.assertReset).len = s.len := rfl
@[simp] theorem assertReset_alg : (s.assertReset).alg = s.alg := rfl
@[simp] theorem assertReset_life : (s.assertReset).life = s.life := rfl
@[simp] theorem assertReset_err : (s.assertReset).err = s.err := rfl
@[simp] theorem assertReset_cause : (s.assertReset).cause = s.cause := rfl
@[simp] theorem assertReset_errData : (s.assertReset).errData = s.errData := rfl
@[simp] theorem assertReset_pq : (s.assertReset).pq = s.pq := rfl
@[simp] theorem assertReset_port : (s.assertReset).port = s.port := rfl
@[simp] theorem assertReset_resp : (s.assertReset).resp = s.resp := rfl
@[simp] theorem assertReset_resetIn : (s.assertReset).resetIn = true := rfl
@[simp] theorem assertReset_draws : (s.assertReset).draws = s.draws := rfl
@[simp] theorem assertReset_raced : (s.assertReset).raced = s.raced := rfl

/-! Recording an error writes ERR, CAUSE and ERRDATA only (60_exceptions.md R301). -/

@[simp] theorem setErr_h (c : Code) (b : Bow) : (setErr c b s).h = s.h := by
  unfold setErr; split <;> rfl
@[simp] theorem setErr_buf (c : Code) (b : Bow) : (setErr c b s).buf = s.buf := by
  unfold setErr; split <;> rfl
@[simp] theorem setErr_fill (c : Code) (b : Bow) : (setErr c b s).fill = s.fill := by
  unfold setErr; split <;> rfl
@[simp] theorem setErr_len (c : Code) (b : Bow) : (setErr c b s).len = s.len := by
  unfold setErr; split <;> rfl
@[simp] theorem setErr_alg (c : Code) (b : Bow) : (setErr c b s).alg = s.alg := by
  unfold setErr; split <;> rfl
@[simp] theorem setErr_life (c : Code) (b : Bow) : (setErr c b s).life = s.life := by
  unfold setErr; split <;> rfl
@[simp] theorem setErr_pq (c : Code) (b : Bow) : (setErr c b s).pq = s.pq := by
  unfold setErr; split <;> rfl
@[simp] theorem setErr_port (c : Code) (b : Bow) : (setErr c b s).port = s.port := by
  unfold setErr; split <;> rfl
@[simp] theorem setErr_resp (c : Code) (b : Bow) : (setErr c b s).resp = s.resp := by
  unfold setErr; split <;> rfl
@[simp] theorem setErr_resetIn (c : Code) (b : Bow) : (setErr c b s).resetIn = s.resetIn := by
  unfold setErr; split <;> rfl
@[simp] theorem setErr_draws (c : Code) (b : Bow) : (setErr c b s).draws = s.draws := by
  unfold setErr; split <;> rfl
@[simp] theorem setErr_raced (c : Code) (b : Bow) : (setErr c b s).raced = s.raced := by
  unfold setErr; split <;> rfl
@[simp] theorem setErr_err (c : Code) (b : Bow) : (setErr c b s).err = true := by
  unfold setErr; split <;> simp_all

/-! A retire writes H and PQ, and the model's counters (10_state.md R43). -/

@[simp] theorem retire_buf : (retire s).buf = s.buf := by
  unfold retire; split <;> rfl
@[simp] theorem retire_fill : (retire s).fill = s.fill := by
  unfold retire; split <;> rfl
@[simp] theorem retire_len : (retire s).len = s.len := by
  unfold retire; split <;> rfl
@[simp] theorem retire_alg : (retire s).alg = s.alg := by
  unfold retire; split <;> rfl
@[simp] theorem retire_life : (retire s).life = s.life := by
  unfold retire; split <;> rfl
@[simp] theorem retire_err : (retire s).err = s.err := by
  unfold retire; split <;> rfl
@[simp] theorem retire_cause : (retire s).cause = s.cause := by
  unfold retire; split <;> rfl
@[simp] theorem retire_errData : (retire s).errData = s.errData := by
  unfold retire; split <;> rfl
@[simp] theorem retire_port : (retire s).port = s.port := by
  unfold retire; split <;> rfl
@[simp] theorem retire_resp : (retire s).resp = s.resp := by
  unfold retire; split <;> rfl
@[simp] theorem retire_resetIn : (retire s).resetIn = s.resetIn := by
  unfold retire; split <;> rfl

/-! A byte append writes BUF, FILL and PQ only (42_stream_commands.md R201). -/

@[simp] theorem appendByte_h (b : Byte) : (appendByte s b).h = s.h := by
  unfold appendByte; dsimp only; split <;> rfl
@[simp] theorem appendByte_len (b : Byte) : (appendByte s b).len = s.len := by
  unfold appendByte; dsimp only; split <;> rfl
@[simp] theorem appendByte_alg (b : Byte) : (appendByte s b).alg = s.alg := by
  unfold appendByte; dsimp only; split <;> rfl
@[simp] theorem appendByte_life (b : Byte) : (appendByte s b).life = s.life := by
  unfold appendByte; dsimp only; split <;> rfl
@[simp] theorem appendByte_err (b : Byte) : (appendByte s b).err = s.err := by
  unfold appendByte; dsimp only; split <;> rfl
@[simp] theorem appendByte_cause (b : Byte) : (appendByte s b).cause = s.cause := by
  unfold appendByte; dsimp only; split <;> rfl
@[simp] theorem appendByte_errData (b : Byte) : (appendByte s b).errData = s.errData := by
  unfold appendByte; dsimp only; split <;> rfl
@[simp] theorem appendByte_port (b : Byte) : (appendByte s b).port = s.port := by
  unfold appendByte; dsimp only; split <;> rfl
@[simp] theorem appendByte_resp (b : Byte) : (appendByte s b).resp = s.resp := by
  unfold appendByte; dsimp only; split <;> rfl
@[simp] theorem appendByte_resetIn (b : Byte) : (appendByte s b).resetIn = s.resetIn := by
  unfold appendByte; dsimp only; split <;> rfl
@[simp] theorem appendByte_draws (b : Byte) : (appendByte s b).draws = s.draws := by
  unfold appendByte; dsimp only; split <;> rfl
@[simp] theorem appendByte_raced (b : Byte) : (appendByte s b).raced = s.raced := by
  unfold appendByte; dsimp only; split <;> rfl

/-! FINAL writes BUF, FILL, STATE and PQ only (43_finalize.md R230). -/

@[simp] theorem finishStream_h : (finishStream s).h = s.h := by
  unfold finishStream; dsimp only; split <;> rfl
@[simp] theorem finishStream_len : (finishStream s).len = s.len := by
  unfold finishStream; dsimp only; split <;> rfl
@[simp] theorem finishStream_alg : (finishStream s).alg = s.alg := by
  unfold finishStream; dsimp only; split <;> rfl
@[simp] theorem finishStream_err : (finishStream s).err = s.err := by
  unfold finishStream; dsimp only; split <;> rfl
@[simp] theorem finishStream_cause : (finishStream s).cause = s.cause := by
  unfold finishStream; dsimp only; split <;> rfl
@[simp] theorem finishStream_errData : (finishStream s).errData = s.errData := by
  unfold finishStream; dsimp only; split <;> rfl
@[simp] theorem finishStream_port : (finishStream s).port = s.port := by
  unfold finishStream; dsimp only; split <;> rfl
@[simp] theorem finishStream_resp : (finishStream s).resp = s.resp := by
  unfold finishStream; dsimp only; split <;> rfl
@[simp] theorem finishStream_resetIn : (finishStream s).resetIn = s.resetIn := by
  unfold finishStream; dsimp only; split <;> rfl
@[simp] theorem finishStream_draws : (finishStream s).draws = s.draws := by
  unfold finishStream; dsimp only; split <;> rfl
@[simp] theorem finishStream_raced : (finishStream s).raced = s.raced := by
  unfold finishStream; dsimp only; split <;> rfl
@[simp] theorem finishStream_buf : (finishStream s).buf = Memory.zero := rfl
@[simp] theorem finishStream_fill : (finishStream s).fill = 0 := rfl
@[simp] theorem finishStream_life : (finishStream s).life = .final := rfl

/-! A word that decodes to no operation writes the error record, the response, the port and the model's counter only
(30_encoding.md R108, 60_exceptions.md R300). -/

@[simp] theorem rejectEffect_h (e : Reject) (r : Request) : (rejectEffect e r s).h = s.h := by
  cases e <;> simp [rejectEffect, raiseBusError, State.busErrorResponse]
@[simp] theorem rejectEffect_buf (e : Reject) (r : Request) : (rejectEffect e r s).buf = s.buf := by
  cases e <;> simp [rejectEffect, raiseBusError, State.busErrorResponse]
@[simp] theorem rejectEffect_fill (e : Reject) (r : Request) : (rejectEffect e r s).fill = s.fill := by
  cases e <;> simp [rejectEffect, raiseBusError, State.busErrorResponse]
@[simp] theorem rejectEffect_len (e : Reject) (r : Request) : (rejectEffect e r s).len = s.len := by
  cases e <;> simp [rejectEffect, raiseBusError, State.busErrorResponse]
@[simp] theorem rejectEffect_alg (e : Reject) (r : Request) : (rejectEffect e r s).alg = s.alg := by
  cases e <;> simp [rejectEffect, raiseBusError, State.busErrorResponse]
@[simp] theorem rejectEffect_life (e : Reject) (r : Request) : (rejectEffect e r s).life = s.life := by
  cases e <;> simp [rejectEffect, raiseBusError, State.busErrorResponse]
@[simp] theorem rejectEffect_pq (e : Reject) (r : Request) : (rejectEffect e r s).pq = s.pq := by
  cases e <;> simp [rejectEffect, raiseBusError, State.busErrorResponse]
@[simp] theorem rejectEffect_resetIn (e : Reject) (r : Request) : (rejectEffect e r s).resetIn = s.resetIn := by
  cases e <;> simp [rejectEffect, raiseBusError, State.busErrorResponse]
@[simp] theorem rejectEffect_raced (e : Reject) (r : Request) : (rejectEffect e r s).raced = s.raced := by
  cases e <;> simp [rejectEffect, raiseBusError, State.busErrorResponse]
@[simp] theorem rejectEffect_err (e : Reject) (r : Request) : (rejectEffect e r s).err = true := by
  cases e <;> simp [rejectEffect, raiseBusError, State.busErrorResponse]

end Sys2Proof.Machine
end

