-- ==== Sys2Proof/Laws/Ops.lean ====
section
/-! SUPPORT. One law per shared operation: everything it can do, said once. -/

namespace Sys2Proof.Machine

/-! Errors and the gate. -/

/-- `SetErr` when an error is already recorded (60_exceptions.md R301). -/
theorem setErr_of_err {s : State} (h : s.err = true) (c : Code) (b : Bow) : setErr c b s = s := by
  unfold setErr; rw [if_pos h]

/-- `SetErr` for the first error (R301). -/
theorem setErr_of_not_err {s : State} (h : s.err = false) (c : Code) (b : Bow) :
    setErr c b s = { s with err := true, cause := ⟨b.w, b.off, c⟩, errData := if b.w then b.data else 0 } := by
  unfold setErr; rw [if_neg (by simp [h])]

/-- The gate while poisoned: nothing changes (R202, R311). -/
theorem streamGate_of_err {s : State} (h : s.err = true) (b : Bow) (body : State → State) : streamGate b body s = s := by
  unfold streamGate; rw [if_pos h]

theorem streamGate_uninit {s : State} (h : s.err = false) (hl : s.life = .uninit) (b : Bow) (body : State → State) :
    streamGate b body s = setErr .notInit b s := by
  unfold streamGate; rw [if_neg (by simp [h]), hl]

theorem streamGate_final {s : State} (h : s.err = false) (hl : s.life = .final) (b : Bow) (body : State → State) :
    streamGate b body s = setErr .finalized b s := by
  unfold streamGate; rw [if_neg (by simp [h]), hl]

theorem streamGate_open {s : State} (h : s.err = false) (hl : s.life = .ready ∨ s.life = .accum) (b : Bow)
    (body : State → State) : streamGate b body s = body s := by
  unfold streamGate; rw [if_neg (by simp [h])]
  rcases hl with hl | hl <;> rw [hl]

/-- Everything the gate can do (R202). -/
theorem streamGate_cases (b : Bow) (body : State → State) (s : State) :
    (s.err = true ∧ streamGate b body s = s) ∨
    (s.err = false ∧ s.life = .uninit ∧ streamGate b body s = setErr .notInit b s) ∨
    (s.err = false ∧ s.life = .final ∧ streamGate b body s = setErr .finalized b s) ∨
    (s.err = false ∧ (s.life = .ready ∨ s.life = .accum) ∧ streamGate b body s = body s) := by
  cases he : s.err
  · cases hl : s.life
    · exact .inr (.inl ⟨rfl, rfl, streamGate_uninit he hl b body⟩)
    · exact .inr (.inr (.inr ⟨rfl, .inl rfl, streamGate_open he (.inl hl) b body⟩))
    · exact .inr (.inr (.inr ⟨rfl, .inr rfl, streamGate_open he (.inr hl) b body⟩))
    · exact .inr (.inr (.inl ⟨rfl, rfl, streamGate_final he hl b body⟩))
  · exact .inl ⟨rfl, streamGate_of_err he b body⟩

/-! Appending bytes. -/

/-- A byte that does not fill the block (42_stream_commands.md R201). -/
theorem appendByte_of_lt {s : State} (h : s.fill.toNat + 1 < 64) (b : Byte) :
    appendByte s b = { s with buf := Memory.write s.buf s.fill.toNat b, fill := s.fill + 1 } := by
  unfold appendByte; dsimp only; rw [if_neg (by omega)]

/-- A byte that fills the block (R201). -/
theorem appendByte_of_full {s : State} (h : s.fill.toNat + 1 = 64) (b : Byte) :
    appendByte s b =
      { s with buf := Memory.write s.buf s.fill.toNat b, fill := 0, pq := s.pq ++ [Memory.write s.buf s.fill.toNat b] } := by
  unfold appendByte; dsimp only; rw [if_pos h]; rfl

/-- FILL counts a byte modulo 64 (10_state.md R36). -/
theorem appendByte_fill (s : State) (b : Byte) : (appendByte s b).fill.toNat = (s.fill.toNat + 1) % 64 := by
  have hlt := s.fill.isLt
  by_cases h : s.fill.toNat + 1 = 64
  · rw [appendByte_of_full h, h]; rfl
  · rw [appendByte_of_lt (by omega), BitVec.toNat_add]; rfl

/-- The fields a sequence of byte appends leaves alone. -/
theorem foldl_appendByte_frame (bs : List Byte) (s : State) :
    let t := bs.foldl appendByte s
    t.h = s.h ∧ t.len = s.len ∧ t.alg = s.alg ∧ t.life = s.life ∧ t.err = s.err ∧ t.cause = s.cause ∧
      t.errData = s.errData ∧ t.port = s.port ∧ t.resp = s.resp ∧ t.resetIn = s.resetIn ∧ t.draws = s.draws ∧
      t.raced = s.raced := by
  induction bs generalizing s with
  | nil => simp
  | cons b bs ih => simpa using ih (appendByte s b)

/-- Appending is one byte at a time: any grouping of the bytes does the same (R210). -/
theorem foldl_appendByte_append (xs ys : List Byte) (s : State) :
    (xs ++ ys).foldl appendByte s = ys.foldl appendByte (xs.foldl appendByte s) :=
  List.foldl_append

/-- Writing bytes, one after the other. -/
theorem Memory.writeBytes_cons (m : Memory) (a : Nat) (b : Byte) (bs : List Byte) :
    Memory.writeBytes m a (b :: bs) = Memory.writeBytes (Memory.write m a b) (a + 1) bs := rfl

/-- Bytes that do not fill the block (42_stream_commands.md R201). -/
theorem foldl_appendByte_of_lt (bs : List Byte) (s : State) (h : s.fill.toNat + bs.length < 64) :
    bs.foldl appendByte s =
      { s with buf := Memory.writeBytes s.buf s.fill.toNat bs, fill := s.fill + BitVec.ofNat 6 bs.length } := by
  induction bs generalizing s with
  | nil => simp [Memory.writeBytes]
  | cons b bs ih =>
    simp only [List.length_cons] at h
    have hf : (s.fill + 1).toNat = s.fill.toNat + 1 := by
      rw [BitVec.toNat_add]; exact Nat.mod_eq_of_lt (by simp; omega)
    rw [List.foldl_cons, appendByte_of_lt (by omega), ih _ (by simp only [hf]; omega)]
    simp only [hf, Memory.writeBytes_cons, List.length_cons]
    congr 1
    apply BitVec.eq_of_toNat_eq
    simp [BitVec.toNat_add]
    omega

/-- Bytes that fill the block: it is enqueued, and the rest starts the next one (R201). -/
theorem foldl_appendByte_of_full (bs : List Byte) (s : State) (h : 64 ≤ s.fill.toNat + bs.length) (hn : bs.length ≤ 64) :
    bs.foldl appendByte s =
      { s with
        buf := Memory.writeBytes (Memory.writeBytes s.buf s.fill.toNat (bs.take (64 - s.fill.toNat))) 0
          (bs.drop (64 - s.fill.toNat))
        fill := BitVec.ofNat 6 (s.fill.toNat + bs.length - 64)
        pq := s.pq ++ [Memory.writeBytes s.buf s.fill.toNat (bs.take (64 - s.fill.toNat))] } := by
  induction bs generalizing s with
  | nil => have := s.fill.isLt; simp at h; omega
  | cons b bs ih =>
    simp only [List.length_cons] at h hn
    have hlt := s.fill.isLt
    by_cases hfull : s.fill.toNat + 1 = 64
    · have h63 : 64 - s.fill.toNat = 1 := by omega
      rw [List.foldl_cons, appendByte_of_full hfull, foldl_appendByte_of_lt _ _ (by simp; omega)]
      simp only [h63, List.take_succ_cons, List.take_zero, List.drop_succ_cons, List.drop_zero, List.length_cons,
        Memory.writeBytes]
      congr 1
      apply BitVec.eq_of_toNat_eq
      simp
      omega
    · have hf : (s.fill + 1).toNat = s.fill.toNat + 1 := by
        rw [BitVec.toNat_add]; exact Nat.mod_eq_of_lt (by simp; omega)
      rw [List.foldl_cons, appendByte_of_lt (by omega), ih _ (by simp only [hf]; omega) (by omega)]
      obtain ⟨k, hk⟩ : ∃ k, 64 - s.fill.toNat = k + 1 := ⟨63 - s.fill.toNat, by omega⟩
      have hk' : 64 - (s.fill.toNat + 1) = k := by omega
      simp only [hf, hk, hk', List.take_succ_cons, List.drop_succ_cons, Memory.writeBytes_cons, List.length_cons]
      congr 2
      omega

/-! The core. -/

theorem busy_eq_false {s : State} : s.busy = false ↔ s.pq = [] := by
  simp [State.busy]

theorem busy_eq_true {s : State} : s.busy = true ↔ s.pq ≠ [] := by
  simp [State.busy]

/-- STATUS[3] is BUSY (10_state.md R49). -/
theorem statusWord_bit3 (s : State) : (statusWord s).getLsbD 3 = s.busy := by
  unfold statusWord
  simp only [BitVec.getLsbD_append]
  simp

/-- The core's step is enabled exactly when the queue is non-empty (10_state.md R43). -/
theorem retire_of_nil {s : State} (h : s.pq = []) : retire s = s := by
  unfold retire; rw [h]

/-- `Retire` (R43). -/
theorem retire_of_cons {s : State} {blk : Memory} {rest : List Memory} (h : s.pq = blk :: rest) :
    retire s =
      { s with h := compress s.alg s.h (Memory.read blk), pq := rest, draws := s.draws + 1, raced := 0 } := by
  unfold retire; rw [h]

theorem retire_pq (s : State) : (retire s).pq = s.pq.tail := by
  cases h : s.pq with
  | nil => rw [retire_of_nil h, h]; rfl
  | cons blk rest => rw [retire_of_cons h]; rfl

theorem drain_of_nil {s : State} (h : s.pq = []) : drain s = s := by
  unfold drain; rw [h]; rfl

theorem drain_of_cons {s : State} {blk : Memory} {rest : List Memory} (h : s.pq = blk :: rest) :
    drain s = drain (retire s) := by
  unfold drain
  rw [retire_pq, h]
  rfl

theorem drain_pq (s : State) : (drain s).pq = [] := by
  generalize hn : s.pq.length = n
  induction n generalizing s with
  | zero => rw [drain_of_nil (List.length_eq_zero_iff.mp hn)]; exact List.length_eq_zero_iff.mp hn
  | succ n ih =>
    obtain ⟨blk, rest, h⟩ := List.exists_cons_of_length_eq_add_one hn
    rw [drain_of_cons h]
    exact ih (retire s) (by rw [retire_pq, h]; simpa [h] using hn)

/-! Compression reads the 64 bytes of its block and nothing else (40_md5_transform.md R131, 41_sha1_transform.md R171). -/

theorem md5Words_congr {f g : Nat → Byte} (h : ∀ j < 64, f j = g j) : md5Words f = md5Words g := by
  refine List.map_congr_left fun j hj => ?_
  have : j < 16 := List.mem_range.mp hj
  rw [h (4 * j) (by omega), h (4 * j + 1) (by omega), h (4 * j + 2) (by omega), h (4 * j + 3) (by omega)]

theorem sha1Words_congr {f g : Nat → Byte} (h : ∀ j < 64, f j = g j) : sha1Words f = sha1Words g := by
  refine List.map_congr_left fun j hj => ?_
  have : j < 16 := List.mem_range.mp hj
  rw [h (4 * j) (by omega), h (4 * j + 1) (by omega), h (4 * j + 2) (by omega), h (4 * j + 3) (by omega)]

theorem compress_congr {f g : Nat → Byte} (h : ∀ j < 64, f j = g j) (alg : Alg) (c : Chain) :
    compress alg c f = compress alg c g := by
  cases alg
  · show compressMd5 c f = compressMd5 c g
    unfold compressMd5 md5Run; rw [md5Words_congr h]
  · show compressSha1 c f = compressSha1 c g
    unfold compressSha1 sha1Run sha1Schedule; rw [sha1Words_congr h]

/-! Padding. -/

theorem le64_length (v : BitVec 64) : (le64 v).length = 8 := by
  simp [le64]

theorem be64_length (v : BitVec 64) : (be64 v).length = 8 := by
  simp [be64, le64]

theorem lengthField_length (alg : Alg) (l : BitVec 64) : (lengthField alg l).length = 8 := by
  cases alg
  · exact le64_length _
  · exact be64_length _

/-- Byte `i` of `LE64` (00_scope.md R13). -/
theorem le64_getD (v : BitVec 64) {i : Nat} (h : i < 8) : (le64 v).getD i 0 = v.extractLsb' (8 * i) 8 := by
  simp [le64, List.getD_eq_getElem?_getD, h]

/-- Byte `i` of `BE64` (00_scope.md R13). -/
theorem be64_getD (v : BitVec 64) {i : Nat} (h : i < 8) : (be64 v).getD i 0 = v.extractLsb' (8 * (7 - i)) 8 := by
  rw [List.getD_eq_getElem?_getD, be64, List.getElem?_reverse (by rw [le64_length]; exact h), le64_length,
    ← List.getD_eq_getElem?_getD, le64_getD v (by omega)]

theorem wf_padBlock {m : Memory} (h : Memory.wf m) {p : Nat} (hp : p < 64) : Memory.wf (padBlock m p) :=
  Memory.wf_writeBytes h (by simp; omega)

/-- The padded block: the bytes before `p`, the marker, zeros (43_finalize.md R231). -/
theorem read_padBlock {m : Memory} (h : Memory.wf m) {p : Nat} (hp : p < 64) (j : Nat) :
    Memory.read (padBlock m p) j = if j < p then Memory.read m j else if j = p then 0x80 else 0 := by
  unfold padBlock
  rw [Memory.read_writeBytes h (by simp; omega)]
  simp only [List.length_cons, List.length_replicate]
  by_cases h1 : j < p
  · rw [if_neg (by omega), if_pos h1]
  · rw [if_neg h1]
    by_cases h2 : j = p
    · subst h2
      rw [if_pos (by omega), if_pos rfl]
      simp
    · rw [if_neg h2]
      by_cases h3 : j < 64
      · rw [if_pos (by omega)]
        obtain ⟨d, rfl⟩ : ∃ d, j = p + 1 + d := ⟨j - (p + 1), by omega⟩
        rw [show p + 1 + d - p = d + 1 by omega, List.getD_cons_succ, List.getD_replicate (h := by omega)]
      · rw [if_neg (by omega)]
        exact Memory.read_eq_zero_of_ge h (by omega)

/-- The blocks FINAL enqueues: one when FILL <= 55, two when FILL >= 56 (43_finalize.md R230, R232). -/
theorem finishStream_pq (s : State) :
    (finishStream s).pq = s.pq ++
      if 56 ≤ s.fill.toNat then
        [padBlock s.buf s.fill.toNat, Memory.writeBytes Memory.zero 56 (lengthField s.alg s.len)]
      else [Memory.writeBytes (padBlock s.buf s.fill.toNat) 56 (lengthField s.alg s.len)] := by
  unfold finishStream
  dsimp only
  split <;> simp [enqueue]

end Sys2Proof.Machine
end

