-- ==== Sys2Proof/Laws/PerInstr.lean ====
section
/-! SUPPORT. Statements made of every instruction, one lemma per constructor. -/

namespace Sys2Proof.Laws.RoundTrip

/-- The decoder gives the instruction back from the fields of its bus operation (30_encoding.md R105, R107). -/
def Statement (i : Instr) : Prop :=
  decode (encode i) = .ok i

theorem nop : Statement .nop := rfl

theorem initMd5 : Statement .initMd5 := rfl

theorem initSha1 : Statement .initSha1 := rfl

theorem final : Statement .final := rfl

theorem upd1 (data : Word) : Statement (.upd1 data) := by
  simp [Statement, decode, encode, Bow.aligned, Instr.isWrite, Instr.offset, Instr.data, decodeWrite]

theorem upd2 (data : Word) : Statement (.upd2 data) := by
  simp [Statement, decode, encode, Bow.aligned, Instr.isWrite, Instr.offset, Instr.data, decodeWrite]

theorem upd3 (data : Word) : Statement (.upd3 data) := by
  simp [Statement, decode, encode, Bow.aligned, Instr.isWrite, Instr.offset, Instr.data, decodeWrite]

theorem upd4 (data : Word) : Statement (.upd4 data) := by
  simp [Statement, decode, encode, Bow.aligned, Instr.isWrite, Instr.offset, Instr.data, decodeWrite]

theorem rdId : Statement .rdId := rfl

theorem rdCmd : Statement .rdCmd := rfl

theorem rdStatus : Statement .rdStatus := rfl

theorem rdCause : Statement .rdCause := rfl

theorem rdData1 : Statement .rdData1 := rfl

theorem rdData2 : Statement .rdData2 := rfl

theorem rdData3 : Statement .rdData3 := rfl

theorem rdData4 : Statement .rdData4 := rfl

theorem rdState0 : Statement .rdState0 := rfl

theorem rdState1 : Statement .rdState1 := rfl

theorem rdState2 : Statement .rdState2 := rfl

theorem rdState3 : Statement .rdState3 := rfl

theorem rdState4 : Statement .rdState4 := rfl

theorem rdErrData : Statement .rdErrData := rfl

theorem rdLenLo : Statement .rdLenLo := rfl

theorem rdLenHi : Statement .rdLenHi := rfl

theorem rdDigest0 : Statement .rdDigest0 := rfl

theorem rdDigest1 : Statement .rdDigest1 := rfl

theorem rdDigest2 : Statement .rdDigest2 := rfl

theorem rdDigest3 : Statement .rdDigest3 := rfl

theorem rdDigest4 : Statement .rdDigest4 := rfl

end Sys2Proof.Laws.RoundTrip
end

