-- ==== Sys2Proof/Laws/Step.lean ====
section
/-! SUPPORT. Everything a step can do, said once: the actions, the performed operation, and the shape of each meaning. -/

namespace Sys2Proof.Machine

/-- Everything a step can do. -/
theorem step_cases {s t : State} (h : step s = .next t) :
    (nextAction s = .reset ∧ t = resetEvent s) ∨
    (nextAction s = .idle ∧ t = s) ∨
    (nextAction s = .retire ∧ t = retire s) ∨
    (∃ r rest, nextAction s = .accept r rest ∧ perform r (takeRequest rest s) = .next t) := by
  unfold step at h
  cases ha : nextAction s with
  | reset => rw [ha] at h; exact .inl ⟨rfl, (Host.Outcome.next.inj h).symm⟩
  | idle => rw [ha] at h; exact .inr (.inl ⟨rfl, (Host.Outcome.next.inj h).symm⟩)
  | retire => rw [ha] at h; exact .inr (.inr (.inl ⟨rfl, (Host.Outcome.next.inj h).symm⟩))
  | accept r rest => rw [ha] at h; exact .inr (.inr (.inr ⟨r, rest, rfl, h⟩))

/-- Everything performing an operation can do. -/
theorem perform_cases {r : Request} {s t : State} (h : perform r s = .next t) :
    (∃ i, decode r.bow = .ok i ∧ exec i s = .next t) ∨ (∃ e, decode r.bow = .error e ∧ t = rejectEffect e r s) := by
  unfold perform at h
  cases hd : decode r.bow with
  | ok i => rw [hd] at h; exact .inl ⟨i, rfl, h⟩
  | error e => rw [hd] at h; exact .inr ⟨e, rfl, (Host.Outcome.next.inj h).symm⟩

/-- Every meaning is one of these (30_encoding.md R107). -/
theorem exec_cases {i : Instr} {s t : State} (h : exec i s = .next t) :
    (i = .nop ∧ t = s.okWrite) ∨
    (i = .initMd5 ∧ t = (startStream .md5 s).okWrite) ∨
    (i = .initSha1 ∧ t = (startStream .sha1 s).okWrite) ∨
    (i = .final ∧ t = (streamGate (encode .final) finishStream s).okWrite) ∨
    (i.takesNoOperand = false ∧ t = (update (encode i) s).okWrite) ∨
    (i.isWrite = false ∧ ∃ v, t = s.okRead v) := by
  cases i
  case nop => exact .inl ⟨rfl, (Host.Outcome.next.inj h).symm⟩
  case initMd5 => exact .inr (.inl ⟨rfl, (Host.Outcome.next.inj h).symm⟩)
  case initSha1 => exact .inr (.inr (.inl ⟨rfl, (Host.Outcome.next.inj h).symm⟩))
  case final => exact .inr (.inr (.inr (.inl ⟨rfl, (Host.Outcome.next.inj h).symm⟩)))
  case upd1 d => exact .inr (.inr (.inr (.inr (.inl ⟨rfl, (Host.Outcome.next.inj h).symm⟩))))
  case upd2 d => exact .inr (.inr (.inr (.inr (.inl ⟨rfl, (Host.Outcome.next.inj h).symm⟩))))
  case upd3 d => exact .inr (.inr (.inr (.inr (.inl ⟨rfl, (Host.Outcome.next.inj h).symm⟩))))
  case upd4 d => exact .inr (.inr (.inr (.inr (.inl ⟨rfl, (Host.Outcome.next.inj h).symm⟩))))
  all_goals exact .inr (.inr (.inr (.inr (.inr ⟨rfl, _, (Host.Outcome.next.inj h).symm⟩))))

/-- Everything an accepted operation can do to the state: the word it came with, the conditions, the new state. -/
inductive Effect (r : Request) (s t : State) : Prop where
  /-- A response and nothing else: NOP, a read, a stream command while poisoned. -/
  | answered (resp : Response) (h : t = s.respond resp)
  /-- INIT. -/
  | started (alg : Alg) (hd : decode r.bow = .ok (match alg with | .md5 => .initMd5 | .sha1 => .initSha1))
      (h : t = (startStream alg s).okWrite)
  /-- A data write that runs. -/
  | appended (i : Instr) (hd : decode r.bow = .ok i) (hi : i.takesNoOperand = false) (he : s.err = false)
      (hl : s.life = .ready ∨ s.life = .accum) (h : t = (appendBytes (dataBytes (encode i)) s).okWrite)
  /-- A FINAL that runs. -/
  | finished (hd : decode r.bow = .ok .final) (he : s.err = false) (hl : s.life = .ready ∨ s.life = .accum)
      (h : t = (finishStream s).okWrite)
  /-- A stream command in UNINIT or in FINAL. -/
  | misused (i : Instr) (hd : decode r.bow = .ok i) (hi : i = .final ∨ i.takesNoOperand = false) (c : Code)
      (hc : s.life = .uninit ∧ c = .notInit ∨ s.life = .final ∧ c = .finalized) (he : s.err = false)
      (h : t = (setErr c (encode i) s).okWrite)
  /-- A word that decodes to no operation. -/
  | rejected (e : Reject) (hd : decode r.bow = .error e) (h : t = rejectEffect e r s)

/-- Everything performing an operation can do (30_encoding.md R105). -/
theorem perform_effect {r : Request} {s t : State} (h : perform r s = .next t) : Effect r s t := by
  rcases perform_cases h with ⟨i, hd, hx⟩ | ⟨e, hd, rfl⟩
  · rcases exec_cases hx with ⟨rfl, rfl⟩ | ⟨rfl, rfl⟩ | ⟨rfl, rfl⟩ | ⟨rfl, rfl⟩ | ⟨hi, rfl⟩ | ⟨hi, v, rfl⟩
    · exact .answered _ rfl
    · exact .started .md5 hd rfl
    · exact .started .sha1 hd rfl
    · rcases streamGate_cases (encode .final) finishStream s with ⟨-, hg⟩ | ⟨he, hl, hg⟩ | ⟨he, hl, hg⟩ | ⟨he, hl, hg⟩ <;>
        rw [hg]
      · exact .answered _ rfl
      · exact .misused _ hd (.inl rfl) _ (.inl ⟨hl, rfl⟩) he rfl
      · exact .misused _ hd (.inl rfl) _ (.inr ⟨hl, rfl⟩) he rfl
      · exact .finished hd he hl rfl
    · unfold update
      rcases streamGate_cases (encode i) (appendBytes (dataBytes (encode i))) s with
        ⟨-, hg⟩ | ⟨he, hl, hg⟩ | ⟨he, hl, hg⟩ | ⟨he, hl, hg⟩ <;> rw [hg]
      · exact .answered _ rfl
      · exact .misused _ hd (.inr hi) _ (.inl ⟨hl, rfl⟩) he rfl
      · exact .misused _ hd (.inr hi) _ (.inr ⟨hl, rfl⟩) he rfl
      · exact .appended i hd hi he hl rfl
    · exact .answered _ rfl
  · exact .rejected e hd rfl

/-- The next action while the reset input is asserted (70_reset_and_hazards.md R345). -/
theorem nextAction_reset {s : State} (h : s.resetIn = true) : nextAction s = .reset := by
  unfold nextAction; rw [if_pos h]

/-- With the queue empty the oldest request is accepted (R340). -/
theorem nextAction_of_not_busy {s : State} (hr : s.resetIn = false) (hb : s.pq = []) {r : Request} {rest : List Request}
    (hp : s.port = r :: rest) : nextAction s = .accept r rest := by
  unfold nextAction
  rw [if_neg (by simp [hr]), if_neg (by simp [busy_eq_false.mpr hb]), hp]

/-- With the queue empty and no request the engine is idle (60_exceptions.md R322). -/
theorem nextAction_idle {s : State} (hr : s.resetIn = false) (hb : s.pq = []) (hp : s.port = []) :
    nextAction s = .idle := by
  unfold nextAction
  rw [if_neg (by simp [hr]), if_neg (by simp [busy_eq_false.mpr hb]), hp]

/-- While busy with no free access enabled the core retires (R340). -/
theorem nextAction_retire {s : State} (hr : s.resetIn = false) (hb : s.pq ≠ []) (hf : firstFree [] s.port = none) :
    nextAction s = .retire := by
  unfold nextAction
  rw [if_neg (by simp [hr]), if_pos (busy_eq_true.mpr hb), hf]

/-- A request found free is free. -/
theorem firstFree_free {waiting : List Nat} {port rest : List Request} {r : Request}
    (h : firstFree waiting port = some (r, rest)) : free r.bow = true := by
  induction port generalizing waiting rest with
  | nil => simp [firstFree] at h
  | cons q qs ih =>
    unfold firstFree at h
    split at h
    · rename_i hq
      simp only [Option.some.injEq, Prod.mk.injEq] at h
      obtain ⟨rfl, -⟩ := h
      simp only [Bool.and_eq_true] at hq
      exact hq.1
    · rw [Option.map_eq_some_iff] at h
      obtain ⟨⟨r', rest'⟩, hfound, heq⟩ := h
      simp only [Prod.mk.injEq] at heq
      obtain ⟨rfl, -⟩ := heq
      exact ih hfound

/-- No request is accepted out of turn if each is held or behind a waiting one of its path (R340, R341). -/
theorem firstFree_eq_none {waiting : List Nat} {port : List Request}
    (h : ∀ q ∈ port, free q.bow = false ∨ q.path ∈ waiting) : firstFree waiting port = none := by
  induction port generalizing waiting with
  | nil => rfl
  | cons q qs ih =>
    unfold firstFree
    rw [if_neg (by rcases h q (List.mem_cons_self ..) with h | h <;> simp [h]), ih fun x hx => ?_]
    · rfl
    · rcases h x (List.mem_cons_of_mem _ hx) with h | h
      · exact .inl h
      · exact .inr (List.mem_cons_of_mem _ h)

/-- A free request is found behind held ones of other paths (R341, log 10). -/
theorem firstFree_append {waiting : List Nat} {held rest : List Request} {r : Request} (hf : free r.bow = true)
    (hw : r.path ∉ waiting) (h : ∀ q ∈ held, free q.bow = false ∧ q.path ≠ r.path) :
    firstFree waiting (held ++ r :: rest) = some (r, held ++ rest) := by
  induction held generalizing waiting with
  | nil => simp [firstFree, hf, hw]
  | cons q qs ih =>
    obtain ⟨hq, hqp⟩ := h q (List.mem_cons_self ..)
    simp only [List.cons_append, firstFree]
    rw [if_neg (by simp [hq]), ih (by simpa using ⟨fun e => hqp e.symm, hw⟩) fun x hx => h x (List.mem_cons_of_mem _ hx)]
    rfl

/-- Where an accepted request comes from: the oldest one when the queue is empty, else a free one (R340, R341). -/
theorem accept_cases {s : State} {r : Request} {rest : List Request} (h : nextAction s = .accept r rest) :
    s.resetIn = false ∧
      ((s.pq = [] ∧ s.port = r :: rest) ∨ (s.pq ≠ [] ∧ free r.bow = true ∧ firstFree [] s.port = some (r, rest))) := by
  unfold nextAction at h
  cases hr : s.resetIn with
  | true => rw [if_pos hr] at h; exact absurd h (by simp)
  | false =>
    refine ⟨rfl, ?_⟩
    rw [if_neg (by simp [hr])] at h
    by_cases hb : s.busy = true
    · rw [if_pos hb] at h
      refine .inr ⟨busy_eq_true.mp hb, ?_⟩
      cases hf : firstFree [] s.port with
      | none => rw [hf] at h; exact absurd h (by simp)
      | some found =>
        obtain ⟨r', rest'⟩ := found
        rw [hf] at h
        dsimp only at h
        split at h
        · exact absurd h (by simp)
        · simp only [Action.accept.injEq] at h
          obtain ⟨rfl, rfl⟩ := h
          exact ⟨firstFree_free hf, rfl⟩
    · rw [if_neg hb] at h
      refine .inl ⟨busy_eq_false.mp (by simpa using hb), ?_⟩
      cases hp : s.port with
      | nil => rw [hp] at h; exact absurd h (by simp)
      | cons q qs =>
        rw [hp] at h
        simp only [Action.accept.injEq] at h
        obtain ⟨rfl, rfl⟩ := h
        rfl

/-- A retire happens only while the queue is non-empty (10_state.md R43). -/
theorem retire_action {s : State} (h : nextAction s = .retire) : s.pq ≠ [] := by
  unfold nextAction at h
  split at h
  · exact absurd h (by simp)
  · split at h
    · rename_i hb
      exact busy_eq_true.mp hb
    · split at h <;> exact absurd h (by simp)

/-- The reset event happens only while the reset input is asserted (R345). -/
theorem reset_action {s : State} (h : nextAction s = .reset) : s.resetIn = true := by
  cases hr : s.resetIn with
  | true => rfl
  | false =>
    unfold nextAction at h
    rw [if_neg (by simp [hr])] at h
    split at h <;> split at h
    · exact absurd h (by simp)
    · split at h <;> exact absurd h (by simp)
    · exact absurd h (by simp)
    · exact absurd h (by simp)

/-- Everything a step can do to the state: the reset event, nothing, a retire, or one accepted operation, which is a free
read unless the queue is empty (R340, R341). -/
theorem step_effect {s t : State} (h : step s = .next t) :
    (s.resetIn = true ∧ t = resetEvent s) ∨ t = s ∨ (s.resetIn = false ∧ s.pq ≠ [] ∧ t = retire s) ∨
    (∃ r rest, s.resetIn = false ∧ nextAction s = .accept r rest ∧ (s.pq = [] ∨ free r.bow = true) ∧
      Effect r (takeRequest rest s) t) := by
  rcases step_cases h with ⟨ha, rfl⟩ | ⟨-, rfl⟩ | ⟨ha, rfl⟩ | ⟨r, rest, ha, hp⟩
  · exact .inl ⟨reset_action ha, rfl⟩
  · exact .inr (.inl rfl)
  · refine .inr (.inr (.inl ⟨?_, retire_action ha, rfl⟩))
    cases hr : s.resetIn with
    | false => rfl
    | true => rw [nextAction_reset hr] at ha; exact absurd ha (by simp)
  · obtain ⟨hr, hwhere⟩ := accept_cases ha
    refine .inr (.inr (.inr ⟨r, rest, hr, ha, ?_, perform_effect hp⟩))
    rcases hwhere with h | h
    · exact .inl h.1
    · exact .inr h.2.1

end Sys2Proof.Machine
end

