-- ==== Sys2Proof/Tests/Slice0.lean ====
section
/-! SUPPORT. The model's own tests: ill-formed terms that well-formedness refuses; words written out from the operation map
(30_encoding.md R107) with what they decode to; one step each against 95_test_vectors.md; lines of the assembler; and, for each
statement with hypotheses, a state that meets them (`witness_`). -/

namespace Sys2Proof.Tests

open Sys2Proof.Machine

/-! Small states. -/

/-- The state after INIT on a reset engine. -/
def ready (alg : Alg) : State :=
  startStream alg State.reset

/-- A stream of `n` bytes "a", `n` below 64. -/
def accum (alg : Alg) (n : Nat) : State :=
  { ready alg with
    life := .accum
    fill := BitVec.ofNat 6 n
    len := BitVec.ofNat 64 n
    buf := Memory.writeBytes Memory.zero 0 (List.replicate n 0x61) }

/-- A stream of the bytes "abc". -/
def abc (alg : Alg) : State :=
  { accum alg 3 with buf := [(0, 0x61), (1, 0x62), (2, 0x63)] }

/-- A finished stream of three bytes with the chaining value `h`. -/
def finished (alg : Alg) (h : Chain) : State :=
  { ready alg with life := .final, len := 3, h := h }

/-- MD5 "abc" finished (95_test_vectors.md P1). -/
def md5Abc : State :=
  finished .md5 ⟨0x98500190, 0xb04fd23c, 0x7d3f96d6, 0x727fe128, 0⟩

/-- SHA-1 "abc" finished (95_test_vectors.md P3). -/
def sha1Abc : State :=
  finished .sha1 ⟨0xa9993e36, 0x4706816a, 0xba3e2571, 0x7850c26c, 0x9cd0d89d⟩

/-- A reset engine after `UPD1 0x61` (95_test_vectors.md P3 line 1). -/
def poisoned : State :=
  { State.reset with err := true, cause := ⟨true, 0x10, .notInit⟩, errData := 0x61 }

/-- The padded block of "abc" (95_test_vectors.md 5.1). -/
def abcBlock (alg : Alg) : Memory :=
  match alg with
  | .md5 => [(0, 0x61), (1, 0x62), (2, 0x63), (3, 0x80), (56, 0x18)]
  | .sha1 => [(0, 0x61), (1, 0x62), (2, 0x63), (3, 0x80), (63, 0x18)]

/-- An engine with the block of "abc" queued, as FINAL leaves it. -/
def busy (alg : Alg) : State :=
  { finished alg (initialValue alg) with pq := [abcBlock alg] }

/-- `s` with one bus operation at its port. -/
def withOp (s : State) (b : Bow) : State :=
  { s with port := [⟨0, b⟩] }

/-- The state after one step (every step answers one). -/
def after (s : State) : State :=
  match step s with
  | .next t => t
  | .fault _ => s
  | .refused _ => s

/-- The state after the operation with table word `w`. -/
def run (s : State) (w : Nat) : State :=
  after (s.withFetchWord 42 w)

/-- The data of the last response, if it was OKAY with data. -/
def answer (s : State) : Option Word :=
  match s.resp with
  | some ⟨.okay, some v⟩ => some v
  | _ => none

/-- The 64 bytes of a block. -/
def bytes (m : Memory) : List Byte :=
  (List.range 64).map (Memory.read m)

/-! Well-formedness refuses ill-formed terms (30_encoding.md R100, R112). -/

theorem test_wf_refuses_read_with_data : Bow.wf ⟨2, false, 0x08, 1⟩ = false := by decide
theorem test_wf_accepts_write_with_data : Bow.wf ⟨2, true, 0x1C, 1⟩ = true := by decide
theorem test_wf_refuses_wide_upd1 : Instr.wf (.upd1 0x100) = false := by decide
theorem test_wf_refuses_wide_upd2 : Instr.wf (.upd2 0x10000) = false := by decide
theorem test_wf_refuses_wide_upd3 : Instr.wf (.upd3 0x1000000) = false := by decide
theorem test_wf_accepts_upd3 : Instr.wf (.upd3 0xFFFFFF) = true := by decide
theorem test_wf_refuses_upd_without_operand : AsmLine.wf (.op (.upd4 0)) = false := by decide
theorem test_wf_refuses_wide_number : AsmLine.wf (.updNum 1 256) = false := by decide
theorem test_wf_refuses_five_bytes : AsmLine.wf (.updNum 5 0) = false := by decide
theorem test_wf_refuses_short_string : AsmLine.wf (.updStr 3 [0x61, 0x62]) = false := by decide
theorem test_wf_refuses_empty_update : AsmLine.wf (.updStr 0 []) = false := by decide
theorem test_wf_accepts_widest_number : AsmLine.wf (.updNum 4 0xFFFFFFFF) = true := by decide

/-! Decoding: one word for each row of 30_encoding.md R107, written out from its SZ, W, OFF and DATA columns. -/

theorem test_decode_nop :
    decodeWord 0b101000010000000000000000000000000000000000 = .ok .nop := by decide
theorem test_decode_initMd5 :
    decodeWord 0b101000010000000000000000000000000000000001 = .ok .initMd5 := by decide
theorem test_decode_initSha1 :
    decodeWord 0b101000010000000000000000000000000100000001 = .ok .initSha1 := by decide
theorem test_decode_final :
    decodeWord 0b101000010000000000000000000000000000000010 = .ok .final := by decide
theorem test_decode_upd1 :
    decodeWord 0b101001000010101010101010101010101001100011 = .ok (.upd1 0xaaaaaa63) := by decide
theorem test_decode_upd2 :
    decodeWord 0b101001010011111111111111110110001001100001 = .ok (.upd2 0xffff6261) := by decide
theorem test_decode_upd3 :
    decodeWord 0b101001100000000000011000110110001001100001 = .ok (.upd3 0x00636261) := by decide
theorem test_decode_upd4 :
    decodeWord 0b101001110001101000011100110110000101101000 = .ok (.upd4 0x68736168) := by decide
theorem test_decode_rdId :
    decodeWord 0b100000000000000000000000000000000000000000 = .ok .rdId := by decide
theorem test_decode_rdCmd :
    decodeWord 0b100000010000000000000000000000000000000000 = .ok .rdCmd := by decide
theorem test_decode_rdStatus :
    decodeWord 0b100000100000000000000000000000000000000000 = .ok .rdStatus := by decide
theorem test_decode_rdCause :
    decodeWord 0b100000110000000000000000000000000000000000 = .ok .rdCause := by decide
theorem test_decode_rdData1 :
    decodeWord 0b100001000000000000000000000000000000000000 = .ok .rdData1 := by decide
theorem test_decode_rdData2 :
    decodeWord 0b100001010000000000000000000000000000000000 = .ok .rdData2 := by decide
theorem test_decode_rdData3 :
    decodeWord 0b100001100000000000000000000000000000000000 = .ok .rdData3 := by decide
theorem test_decode_rdData4 :
    decodeWord 0b100001110000000000000000000000000000000000 = .ok .rdData4 := by decide
theorem test_decode_rdState0 :
    decodeWord 0b100010000000000000000000000000000000000000 = .ok .rdState0 := by decide
theorem test_decode_rdState1 :
    decodeWord 0b100010010000000000000000000000000000000000 = .ok .rdState1 := by decide
theorem test_decode_rdState2 :
    decodeWord 0b100010100000000000000000000000000000000000 = .ok .rdState2 := by decide
theorem test_decode_rdState3 :
    decodeWord 0b100010110000000000000000000000000000000000 = .ok .rdState3 := by decide
theorem test_decode_rdState4 :
    decodeWord 0b100011000000000000000000000000000000000000 = .ok .rdState4 := by decide
theorem test_decode_rdErrData :
    decodeWord 0b100011010000000000000000000000000000000000 = .ok .rdErrData := by decide
theorem test_decode_rdLenLo :
    decodeWord 0b100011100000000000000000000000000000000000 = .ok .rdLenLo := by decide
theorem test_decode_rdLenHi :
    decodeWord 0b100011110000000000000000000000000000000000 = .ok .rdLenHi := by decide
theorem test_decode_rdDigest0 :
    decodeWord 0b100100000000000000000000000000000000000000 = .ok .rdDigest0 := by decide
theorem test_decode_rdDigest1 :
    decodeWord 0b100100010000000000000000000000000000000000 = .ok .rdDigest1 := by decide
theorem test_decode_rdDigest2 :
    decodeWord 0b100100100000000000000000000000000000000000 = .ok .rdDigest2 := by decide
theorem test_decode_rdDigest3 :
    decodeWord 0b100100110000000000000000000000000000000000 = .ok .rdDigest3 := by decide
theorem test_decode_rdDigest4 :
    decodeWord 0b100101000000000000000000000000000000000000 = .ok .rdDigest4 := by decide

/-! Words that decode to no operation (30_encoding.md R108; 60_exceptions.md R309; 95_test_vectors.md 7). -/

theorem test_reject_byte_read : decodeWord 0x00800000000 = .error .badAccess := by decide
theorem test_reject_misaligned_write : decodeWord 0x29200000005 = .error .badAccess := by decide
theorem test_reject_byte_write_reserved : decodeWord 0x0D500000001 = .error .badAccess := by decide
theorem test_reject_write_status : decodeWord 0x28800000005 = .error .badOffset := by decide
theorem test_reject_read_reserved : decodeWord 0x25400000000 = .error .badOffset := by decide
theorem test_reject_op3 : decodeWord 0x28400000003 = .error .illegalCmd := by decide
theorem test_reject_final_with_alg : decodeWord 0x28400000102 = .error .illegalCmd := by decide
theorem test_reject_nop_with_alg : decodeWord 0x28400000100 = .error .illegalCmd := by decide
theorem test_reject_bit4 : decodeWord 0x28400000011 = .error .illegalCmd := by decide
theorem test_reject_bit31 : decodeWord 0x28480000000 = .error .illegalCmd := by decide
theorem test_table_word_short : decodeTableWord 42 0x29800636261 = some (.upd3 0x636261) := by decide

/-! Word operators (00_scope.md R12, R13; 95_test_vectors.md 3.1). -/

theorem test_add_wraps : (0xFFFFFFFF + 1 : Word) = 0 := by decide
theorem test_rotl_1 : rotl 0x80000001 1 = 0x00000003 := by decide
theorem test_rotl_30 : rotl 0x12345678 30 = 0x048d159e := by decide
theorem test_rotl_5 : rotl 0x67452301 5 = 0xe8a4602c := by decide
theorem test_bswap : bswap32 0xa9993e36 = 0x363e99a9 := by decide
theorem test_md5F : md5F 0x12345678 0x9abcdef0 0x0f1e2d3c = 0x1f3e7f74 := by decide
theorem test_md5G : md5G 0x12345678 0x9abcdef0 0x0f1e2d3c = 0x92b4d6f8 := by decide
theorem test_md5H : md5H 0x12345678 0x9abcdef0 0x0f1e2d3c = 0x8796a5b4 := by decide
theorem test_md5I : md5I 0x12345678 0x9abcdef0 0x0f1e2d3c = 0x6849080b := by decide
theorem test_sha1Majority : sha1Majority 0x12345678 0x9abcdef0 0x0f1e2d3c = 0x1a3c5e78 := by decide

/-! The compression functions (95_test_vectors.md 3.2, 3.4, 3.6). -/

theorem test_md5_word0 : (md5Words (Memory.read (abcBlock .md5))).getD 0 0 = 0x80636261 := by decide
theorem test_md5_step0 :
    md5Run (initialValue .md5) (Memory.read (abcBlock .md5)) 1 =
      ⟨0x10325476, 0xd6d117b4, 0xefcdab89, 0x98badcfe⟩ := by decide +kernel
theorem test_md5_step48 :
    md5Run (initialValue .md5) (Memory.read (abcBlock .md5)) 49 =
      ⟨0x99d9679d, 0x7b201df8, 0x7beb9700, 0x8fae6399⟩ := by decide +kernel
theorem test_md5_zero_block :
    compressMd5 (initialValue .md5) (fun _ => 0) = ⟨0x031f1dac, 0x6ea58ed0, 0x1fab67b7, 0x74317791, 0⟩ := by decide +kernel
theorem test_md5_ones_block :
    compressMd5 ⟨0, 0, 0, 0, 0⟩ (fun _ => 0xff) = ⟨0xe0317343, 0xa301becb, 0xc156fa57, 0x9083016f, 0⟩ := by decide +kernel
theorem test_sha1_word16 : (sha1Schedule (Memory.read (abcBlock .sha1))).getD 16 0 = 0xc2c4c700 := by decide +kernel
theorem test_sha1_word79 : (sha1Schedule (Memory.read (abcBlock .sha1))).getD 79 0 = 0x822e0879 := by decide +kernel
theorem test_sha1_step40 :
    sha1Run (initialValue .sha1) (Memory.read (abcBlock .sha1)) 41 =
      ⟨0xfc87dedf, 0x32de1cba, 0x53261901, 0xf718e5cf, 0x03d447f6⟩ := by decide +kernel
theorem test_sha1_zero_block :
    compressSha1 (initialValue .sha1) (fun _ => 0) =
      ⟨0x92b404e5, 0x56588ced, 0x6c1acd4e, 0xbf053f68, 0x09f73a93⟩ := by decide +kernel
theorem test_sha1_ones_block :
    compressSha1 ⟨0, 0, 0, 0, 0⟩ (fun _ => 0xff) =
      ⟨0xd21fa547, 0x30867de7, 0x4c374871, 0xc1865e49, 0x1ece2c16⟩ := by decide +kernel
theorem test_retire_md5 : (after (busy .md5)).h = md5Abc.h ∧ (after (busy .md5)).pq = [] := by decide +kernel
theorem test_retire_sha1 : (after (busy .sha1)).h = sha1Abc.h ∧ statusWord (after (busy .sha1)) = 0x00000007 := by
  decide +kernel

/-! Stream commands (95_test_vectors.md 4). -/

theorem test_nop : statusWord (run (ready .md5) 0x28400000000) = 0x00000001 := by decide
theorem test_nop_poisoned : (run poisoned 0x28400000000).cause = poisoned.cause := by decide
theorem test_initMd5_after_sha1 :
    statusWord (run sha1Abc 0x28400000001) = 0x00000001 ∧
      (run sha1Abc 0x28400000001).h = ⟨0x67452301, 0xefcdab89, 0x98badcfe, 0x10325476, 0⟩ := by decide
theorem test_initMd5_abandons : (run (accum .md5 4) 0x28400000001).len = 0 := by decide
theorem test_initSha1_poisoned :
    statusWord (run poisoned 0x28400000101) = 0x00000005 ∧ causeWord (run poisoned 0x28400000101).cause = 0 ∧
      (run poisoned 0x28400000101).errData = 0 := by decide
theorem test_initSha1_h4 : (run State.reset 0x28400000101).h.h4 = 0xc3d2e1f0 := by decide
theorem test_upd1 :
    statusWord (run (ready .md5) 0x29000000061) = 0x00000102 ∧ (run (ready .md5) 0x29000000061).len = 1 := by decide
theorem test_upd1_fills : (run (accum .md5 63) 0x29000000061).pq.map bytes = [List.replicate 64 0x61] := by
  decide +kernel
theorem test_upd2_ignores_lanes :
    statusWord (run (ready .md5) 0x294FFFF6261) = 0x00000202 ∧
      (run (ready .md5) 0x294FFFF6261).buf = [(0, 0x61), (1, 0x62)] := by decide
theorem test_upd2_crosses :
    (run (accum .md5 63) 0x29400006261).fill = 1 ∧
      (Memory.read (run (accum .md5 63) 0x29400006261).buf) 0 = 0x62 := by decide +kernel
theorem test_upd3 :
    statusWord (run (ready .md5) 0x29800636261) = 0x00000302 ∧ (run (ready .md5) 0x29800636261).buf = (abc .md5).buf := by
  decide
theorem test_upd3_crosses : (run (accum .sha1 61) 0x29800636261).fill = 0 := by decide +kernel
theorem test_upd4_crosses :
    statusWord (retire (run (accum .sha1 62) 0x29C61616161)) = 0x00000206 ∧
      (run (accum .sha1 62) 0x29C61616161).len = 66 := by decide +kernel
theorem test_upd4_len_wraps :
    (run { ready .md5 with len := 0xFFFFFFFFFFFFFFFE } 0x29C61616161).len = 2 := by decide

/-! FINAL (95_test_vectors.md 5). -/

theorem test_final_md5_abc : (run (abc .md5) 0x28400000002).pq = [abcBlock .md5] := by decide +kernel
theorem test_final_sha1_abc : (run (abc .sha1) 0x28400000002).pq = [abcBlock .sha1] := by decide +kernel
theorem test_final_two_blocks :
    (run (accum .md5 56) 0x28400000002).pq.map bytes =
      [List.replicate 56 0x61 ++ [0x80, 0, 0, 0, 0, 0, 0, 0], List.replicate 56 0 ++ [0xc0, 0x01, 0, 0, 0, 0, 0, 0]] := by
  decide +kernel
theorem test_final_one_block :
    (run (accum .sha1 55) 0x28400000002).pq.map bytes =
      [List.replicate 55 0x61 ++ [0x80, 0, 0, 0, 0, 0, 0, 0x01, 0xb8]] := by decide +kernel
theorem test_length_2_61 : lengthField .md5 0x2000000000000001 = [0x08, 0, 0, 0, 0, 0, 0, 0] := by decide
theorem test_length_2_29 : lengthField .sha1 0x20000000 = [0, 0, 0, 0x01, 0, 0, 0, 0] := by decide

/-! Register reads (95_test_vectors.md 6). -/

theorem test_rdId : answer (run State.reset 0x20000000000) = some 0x48415348 := by decide
theorem test_rdStatus : answer (run (abc .md5) 0x20800000000) = some 0x00000302 := by decide
theorem test_rdCause : answer (run poisoned 0x20C00000000) = some 0x00009002 := by decide
theorem test_rdErrData : answer (run poisoned 0x23400000000) = some 0x00000061 := by decide
theorem test_rdCmd : answer (run sha1Abc 0x20400000000) = some 0x00000000 := by decide
theorem test_rdData1 : answer (run sha1Abc 0x21000000000) = some 0x00000000 := by decide
theorem test_rdData2 : answer (run sha1Abc 0x21400000000) = some 0x00000000 := by decide
theorem test_rdData3 : answer (run sha1Abc 0x21800000000) = some 0x00000000 := by decide
theorem test_rdData4 : answer (run sha1Abc 0x21C00000000) = some 0x00000000 := by decide
theorem test_rdState0 : answer (run sha1Abc 0x22000000000) = some 0xa9993e36 := by decide
theorem test_rdState1 : answer (run sha1Abc 0x22400000000) = some 0x4706816a := by decide
theorem test_rdState2 : answer (run sha1Abc 0x22800000000) = some 0xba3e2571 := by decide
theorem test_rdState3 : answer (run sha1Abc 0x22C00000000) = some 0x7850c26c := by decide
theorem test_rdState4 : answer (run sha1Abc 0x23000000000) = some 0x9cd0d89d := by decide
theorem test_rdLenLo : answer (run md5Abc 0x23800000000) = some 0x00000003 := by decide
theorem test_rdLenHi : answer (run md5Abc 0x23C00000000) = some 0x00000000 := by decide
theorem test_rdDigest0 : answer (run sha1Abc 0x24000000000) = some 0x363e99a9 := by decide
theorem test_rdDigest1 : answer (run sha1Abc 0x24400000000) = some 0x6a810647 := by decide
theorem test_rdDigest2 : answer (run sha1Abc 0x24800000000) = some 0x71253eba := by decide
theorem test_rdDigest3 : answer (run sha1Abc 0x24C00000000) = some 0x6cc25078 := by decide
theorem test_rdDigest4 : answer (run sha1Abc 0x25000000000) = some 0x9dd8d09c := by decide
theorem test_rdDigest0_md5 : answer (run md5Abc 0x24000000000) = some 0x98500190 := by decide
theorem test_rdDigest4_md5 : answer (run md5Abc 0x25000000000) = some 0 := by decide
theorem test_rdStatus_final : answer (run sha1Abc 0x20800000000) = some 0x00000007 := by decide

/-- 95_test_vectors.md 6.1, P7 line 3: a free read that comes before the retire sees BUSY = 1. -/
theorem test_rdStatus_busy : statusWord (busy .md5) = 0x0000000B ∧ statusWord (busy .sha1) = 0x0000000F := by decide

/-- P7: a read of DIGEST0 is held: the retire comes first, and the read is still at the port. -/
theorem test_digest_read_is_held :
    let s := after (withOp (busy .sha1) (encode .rdDigest0))
    s.pq = [] ∧ s.port = [⟨0, encode .rdDigest0⟩] ∧ answer (after s) = some 0x363e99a9 := by decide +kernel

/-! Errors (95_test_vectors.md 7, 8). Each row: STATUS, CAUSE, ERRDATA and response. -/

/-- What the rows of the table show. -/
def record (s : State) : Word × Word × Word × Option Response :=
  (statusWord s, causeWord s.cause, s.errData, s.resp)

theorem test_error_upd1_uninit :
    record (run State.reset 0x29000000061) = (0x00000010, 0x00009002, 0x00000061, some ⟨.okay, none⟩) := by decide
theorem test_error_final_poisoned :
    record (run poisoned 0x28400000002) = (0x00000010, 0x00009002, 0x00000061, some ⟨.okay, none⟩) := by decide
theorem test_error_illegal_uninit :
    record (run State.reset 0x28400000100) = (0x00000010, 0x00008401, 0x00000100, some ⟨.okay, none⟩) := by decide
theorem test_error_illegal_ready :
    record (run (ready .md5) 0x28480000000) = (0x00000011, 0x00008401, 0x80000000, some ⟨.okay, none⟩) := by decide
theorem test_error_final_finalized :
    record (run sha1Abc 0x28400000002) = (0x00000017, 0x00008403, 0x00000002, some ⟨.okay, none⟩) := by decide
theorem test_error_upd2_finalized :
    record (run sha1Abc 0x29400006261) = (0x00000017, 0x00009403, 0x00006261, some ⟨.okay, none⟩) := by decide
theorem test_error_byte_read :
    record (run (ready .md5) 0x00800000000) = (0x00000011, 0x00000804, 0x00000000, some ⟨.error, some 0⟩) := by decide
theorem test_error_misaligned_write :
    record (run (ready .md5) 0x29200000005) = (0x00000011, 0x00009204, 0x00000005, some ⟨.error, none⟩) := by decide
theorem test_error_byte_write_reserved :
    record (run (ready .md5) 0x0D500000001) = (0x00000011, 0x0000d504, 0x00000001, some ⟨.error, none⟩) := by decide
theorem test_error_write_status :
    record (run (ready .md5) 0x28800000005) = (0x00000011, 0x00008805, 0x00000005, some ⟨.error, none⟩) := by decide
theorem test_error_read_reserved :
    record (run (ready .md5) 0x25400000000) = (0x00000011, 0x00005405, 0x00000000, some ⟨.error, some 0⟩) := by decide
theorem test_error_second_error :
    record (run poisoned 0x29200000005) = (0x00000010, 0x00009002, 0x00000061, some ⟨.error, none⟩) := by decide
theorem test_error_final_uninit :
    record (run State.reset 0x28400000002) = (0x00000010, 0x00008402, 0x00000002, some ⟨.okay, none⟩) := by decide
theorem test_reset_mid_stream :
    let s := after ((busy .md5).assertReset)
    statusWord s = 0 ∧ s.pq = [] ∧ s.h = ⟨0, 0, 0, 0, 0⟩ ∧ s.len = 0 := by decide

/-! The assembler (30_encoding.md R111 to R117; 95_test_vectors.md 9). -/

theorem test_asm_string : readLine "upd3 \"abc\" ; three".toList = some (some (.updStr 3 [0x61, 0x62, 0x63])) := by
  decide +kernel
theorem test_asm_string_word :
    AsmLine.expand .md5 (.updStr 3 [0x61, 0x62, 0x63]) = some [.issue (Bow.ofWord 0x29800636261)] := by decide
theorem test_asm_refuses_wide : readLine "UPD1 0x100".toList = none := by decide +kernel
theorem test_asm_raw : readLine "WR.w 0x12, 5".toList = some (some (.wr 2 0x12 5)) := by decide +kernel
theorem test_asm_raw_word : AsmLine.expand .md5 (.wr 2 0x12 5) = some [.issue (Bow.ofWord 0x29200000005)] := by decide
theorem test_asm_hex_update :
    readLine "UPDATE 0x6861736863".toList = some (some (.update [0x68, 0x61, 0x73, 0x68, 0x63])) := by decide +kernel
theorem test_asm_update :
    updateInstrs [0x68, 0x61, 0x73, 0x68, 0x63, 0x61, 0x74] = [.upd4 0x68736168, .upd3 0x00746163] := by decide
theorem test_asm_empty_update : AsmLine.expand .md5 (.update []) = some [] := by decide
theorem test_asm_rdDigest : (rdDigestInstrs .md5).length = 4 ∧ (rdDigestInstrs .sha1).length = 5 := by decide

/-! The platform (20_memory.md R83). -/

theorem test_access_word : (memRead 0 0 0 0x1088 1).bow 0x1080 = Bow.ofWord 0x00800000000 := by decide
/-- 30_encoding.md R100: a byte enable off makes SZ = 3 of a 4-byte access only. -/
theorem test_access_byte_enables : accessSz 1 false = 0 ∧ accessSz 2 false = 1 ∧ accessSz 4 false = 3 ∧ accessSz 8 true = 3 := by
  decide
theorem test_window : inWindow 0x1080 0x10FF = true ∧ inWindow 0x1080 0x1100 = false := by decide

/-! Witnesses: for each statement with hypotheses, a state and operands that meet all of them, with a boundary value for each
clause. -/

theorem witness_ResetInputClearsTheEngine : (busy .md5).assertReset.resetIn = true := rfl
theorem witness_ResetDropsTheWaitingOperations :
    (withOp (busy .md5) (encode .nop)).assertReset.resetIn = true := rfl

/-- A write (its word is its encoding) and a read with DATA that is ignored. -/
theorem witness_DecodedWordsEncodeBack :
    (decodeWord 0x29800636261 = .ok (.upd3 0x636261) ∧ (Instr.upd3 0x636261).isWrite = true) ∧
      (decodeWord 0x20800000005 = .ok .rdStatus ∧ Instr.rdStatus.isWrite = false) := by decide

/-- A row and a word that it matches, and a word that no row matches. -/
theorem witness_DecodingFollowsTheOperationMap :
    (⟨"UPD4", 0x29C00000000, 0x3FF00000000⟩ : OpRow) ∈ opcodeRows ∧
      (0x29CFFFFFFFF : BitVec 42) &&& 0x3FF00000000 = 0x29C00000000 ∧
      (opcodeRows.filter fun row => (0x25400000000 : BitVec 42) &&& row.mask == row.matchBits) = [] := by decide

/-- The four words, and the ones next to them. -/
theorem witness_FourCommandWordsAreLegal :
    decode ⟨2, true, 0x04, 0x100⟩ = .error .illegalCmd ∧ decode ⟨2, true, 0x04, 0x101⟩ = .ok .initSha1 ∧
      decode ⟨2, true, 0x04, 0x102⟩ = .error .illegalCmd ∧ decode ⟨2, true, 0x04, 3⟩ = .error .illegalCmd := by decide

/-- The ends of the ranges: the last register, the first reserved offset, the last one; a write at each end. -/
theorem witness_IllegalWordsAreRejectedByName :
    decode ⟨2, false, 0x50, 0⟩ = .ok .rdDigest4 ∧ decode ⟨2, false, 0x54, 0⟩ = .error .badOffset ∧
      decode ⟨2, false, 0x7C, 0⟩ = .error .badOffset ∧ decode ⟨2, true, 0x0C, 0⟩ = .error .badOffset ∧
      decode ⟨2, true, 0x20, 0⟩ = .error .badOffset ∧ decode ⟨2, true, 0x7F, 0⟩ = .error .badAccess ∧
      decode ⟨3, true, 0x04, 3⟩ = .error .badAccess := by decide

/-- An empty queue with a command, and a busy engine with a free read. -/
theorem witness_StepRunsTheDecodedOperation :
    ((withOp State.reset (encode .initMd5)).resetIn = false ∧
      (withOp State.reset (encode .initMd5)).port = ⟨0, encode .initMd5⟩ :: [] ∧
      decode (encode .initMd5) = .ok .initMd5 ∧ (withOp State.reset (encode .initMd5)).pq = []) ∧
    ((withOp (busy .md5) (encode .rdStatus)).resetIn = false ∧
      (withOp (busy .md5) (encode .rdStatus)).port = ⟨0, encode .rdStatus⟩ :: [] ∧
      decode (encode .rdStatus) = .ok .rdStatus ∧ (withOp (busy .md5) (encode .rdStatus)).pq ≠ [] ∧
      free (encode .rdStatus) = true) := by decide

theorem witness_IdleEngineDoesNothing :
    (ready .md5).resetIn = false ∧ (ready .md5).pq = [] ∧ (ready .md5).port = [] := by decide

theorem witness_InitStartsAStream : poisoned.pq = [] ∧ (busy .sha1).pq ≠ [] := by decide

theorem witness_ReinitForgetsTheOldStream :
    poisoned.pq = [] ∧ (∃ t, exec .initSha1 poisoned = .next t) ∧ ∃ u, exec .initSha1 State.reset = .next u :=
  ⟨rfl, ⟨_, rfl⟩, ⟨_, rfl⟩⟩

/-- READY with an empty buffer; ACCUM with a buffer the write leaves one byte short, fills exactly, and crosses. -/
theorem witness_DataWritesAppendTheirBytes :
    (Memory.wf (ready .md5).buf ∧ (ready .md5).err = false ∧ (ready .md5).life = .ready ∧
      (ready .md5).fill.toNat + 1 < 64) ∧
    (Memory.wf (accum .md5 59).buf ∧ (accum .md5 59).err = false ∧ (accum .md5 59).life = .accum ∧
      (accum .md5 59).fill.toNat + 4 = 63) ∧
    (Memory.wf (accum .sha1 60).buf ∧ (accum .sha1 60).err = false ∧ (accum .sha1 60).life = .accum ∧
      (accum .sha1 60).fill.toNat + 4 = 64) ∧
    (Memory.wf (accum .sha1 63).buf ∧ (accum .sha1 63).fill.toNat + 4 = 67) := by decide +kernel

/-- Poisoned; UNINIT; FINAL; READY and ACCUM. -/
theorem witness_StreamCommandsPassAGate :
    (Instr.final, (0x04 : BitVec 7), (0x00000002 : Word)) ∈ [(Instr.upd1 7, (0x10 : BitVec 7), (7 : Word)),
      (.upd2 7, 0x14, 7), (.upd3 7, 0x18, 7), (.upd4 7, 0x1C, 7), (.final, 0x04, 0x00000002)] ∧
    poisoned.err = true ∧ (State.reset.err = false ∧ State.reset.life = .uninit) ∧
    (sha1Abc.err = false ∧ sha1Abc.life = .final) ∧ ((ready .md5).err = false ∧ (ready .md5).life = .ready) ∧
    ((accum .md5 1).err = false ∧ (accum .md5 1).life = .accum) := by decide

/-- FILL 0, 55, 56 and 63. -/
theorem witness_FinalPadsTheStream :
    (Memory.wf (ready .md5).buf ∧ (ready .md5).err = false ∧ (ready .md5).life = .ready ∧ (ready .md5).fill.toNat = 0) ∧
    (Memory.wf (accum .md5 55).buf ∧ (accum .md5 55).err = false ∧ (accum .md5 55).life = .accum ∧
      (accum .md5 55).fill.toNat ≤ 55) ∧
    (Memory.wf (accum .sha1 56).buf ∧ (accum .sha1 56).err = false ∧ (accum .sha1 56).life = .accum ∧
      56 ≤ (accum .sha1 56).fill.toNat) ∧
    (Memory.wf (accum .sha1 63).buf ∧ 56 ≤ (accum .sha1 63).fill.toNat) := by decide +kernel

theorem witness_ReadsOnlyAnswer :
    Instr.rdDigest4 ∈ [Instr.rdId, .rdCmd, .rdStatus, .rdCause, .rdData1, .rdData2, .rdData3, .rdData4, .rdState0, .rdState1,
      .rdState2, .rdState3, .rdState4, .rdErrData, .rdLenLo, .rdLenHi, .rdDigest0, .rdDigest1, .rdDigest2, .rdDigest3,
      .rdDigest4] := by decide

/-- DIGEST4 and DIGEST0, in both modes. -/
theorem witness_DigestReadsSerializeH :
    (4, Instr.rdDigest4, md5Abc.h.h4) ∈ [(0, Instr.rdDigest0, md5Abc.h.h0), (1, .rdDigest1, md5Abc.h.h1),
      (2, .rdDigest2, md5Abc.h.h2), (3, .rdDigest3, md5Abc.h.h3), (4, .rdDigest4, md5Abc.h.h4)] ∧
    md5Abc.alg = .md5 ∧ sha1Abc.alg = .sha1 := by decide

theorem witness_FreeReadsSeeARetireOnlyInBusy : (busy .sha1).pq ≠ [] := by decide

/-- One request for each name, with no error recorded before it and with one. -/
theorem witness_IllegalWordsAreRecorded :
    (∀ s ∈ [ready .md5, poisoned], s.resetIn = false ∧ s.pq = []) ∧
    (∀ b ∈ [(⟨0, false, 0x08, 0⟩ : Bow), ⟨2, true, 0x12, 5⟩], decode b = .error .badAccess) ∧
    decode ⟨2, true, 0x08, 5⟩ = .error .badOffset ∧ decode ⟨2, false, 0x54, 0⟩ = .error .badOffset ∧
    decode ⟨2, true, 0x04, 3⟩ = .error .illegalCmd ∧ (ready .md5).err = false ∧ poisoned.err = true := by decide

/-- Reset; INIT; an error that stays while CAUSE is read. -/
theorem witness_OnlyInitAndResetClearAnError :
    (∃ t, step poisoned.assertReset = .next t ∧ poisoned.assertReset.resetIn = true) ∧
    (∃ t, step (withOp poisoned (encode .initMd5)) = .next t ∧ (withOp poisoned (encode .initMd5)).Accepts .initMd5) ∧
    (∃ t, step (withOp poisoned (encode .rdCause)) = .next t ∧ (withOp poisoned (encode .rdCause)).err = true ∧
      (withOp poisoned (encode .rdCause)).resetIn = false ∧ ¬ (withOp poisoned (encode .rdCause)).Accepts .initMd5 ∧
      ¬ (withOp poisoned (encode .rdCause)).Accepts .initSha1) := by
  refine ⟨⟨_, rfl, rfl⟩, ⟨_, rfl, _, _, rfl, rfl⟩, ⟨_, rfl, rfl, rfl, ?_, ?_⟩⟩ <;>
    · rintro ⟨r, rest, ha, hd⟩
      cases ha
      cases hd

/-- A data write while poisoned, and a retire while poisoned. -/
theorem witness_PoisonedStreamStandsStill :
    (∃ t, step (withOp poisoned (encode (.upd1 0x61))) = .next t ∧ (withOp poisoned (encode (.upd1 0x61))).err = true ∧
      (withOp poisoned (encode (.upd1 0x61))).resetIn = false ∧
      ¬ (withOp poisoned (encode (.upd1 0x61))).Accepts .initMd5 ∧
      ¬ (withOp poisoned (encode (.upd1 0x61))).Accepts .initSha1) ∧
    (∃ t, step { busy .md5 with err := true } = .next t ∧ nextAction { busy .md5 with err := true } = .retire) := by
  refine ⟨⟨_, rfl, rfl, rfl, ?_, ?_⟩, ⟨_, rfl, rfl⟩⟩ <;>
    · rintro ⟨r, rest, ha, hd⟩
      cases ha
      cases hd

/-- A reset, both INITs, a retire, and a step that leaves H alone. -/
theorem witness_OnlyInitRetireAndResetWriteH :
    (∃ t, step (busy .md5).assertReset = .next t) ∧
    (∃ t, step (withOp sha1Abc (encode .initMd5)) = .next t ∧ (withOp sha1Abc (encode .initMd5)).Accepts .initMd5) ∧
    (∃ t, step (withOp md5Abc (encode .initSha1)) = .next t ∧ (withOp md5Abc (encode .initSha1)).Accepts .initSha1) ∧
    (∃ t, step (busy .sha1) = .next t ∧ (busy .sha1).pq = abcBlock .sha1 :: t.pq) ∧
    (∃ t, step (withOp (abc .md5) (encode .final)) = .next t) :=
  ⟨⟨_, rfl⟩, ⟨_, rfl, _, _, rfl, rfl⟩, ⟨_, rfl, _, _, rfl, rfl⟩, ⟨_, rfl, rfl⟩, ⟨_, rfl⟩⟩

theorem witness_OnlyInitAndResetWriteAlg :
    (∃ t, step sha1Abc.assertReset = .next t) ∧ (∃ t, step (withOp sha1Abc (encode .initMd5)) = .next t) ∧
    (∃ t, step (withOp md5Abc (encode .initSha1)) = .next t) ∧ (∃ t, step (busy .sha1) = .next t) :=
  ⟨⟨_, rfl⟩, ⟨_, rfl⟩, ⟨_, rfl⟩, ⟨_, rfl⟩⟩

/-- A step into each lifecycle state. -/
theorem witness_LifecycleFollowsItsTable :
    (∃ t, step sha1Abc.assertReset = .next t ∧ t.life = .uninit) ∧
    (∃ t, step (withOp sha1Abc (encode .initMd5)) = .next t ∧ t.life = .ready) ∧
    (∃ t, step (withOp (ready .md5) (encode (.upd1 0))) = .next t ∧ t.life = .accum) ∧
    (∃ t, step (withOp (ready .md5) (encode .final)) = .next t ∧ t.life = .final) :=
  ⟨⟨_, rfl, rfl⟩, ⟨_, rfl, rfl⟩, ⟨_, rfl, rfl⟩, ⟨_, rfl, rfl⟩⟩

/-- A data write that fills the block; FINAL at FILL 55 and 56; a retire. -/
theorem witness_BlocksEnqueuedPerStep :
    (∃ t, step (withOp (accum .md5 60) (encode (.upd4 0))) = .next t ∧
      (withOp (accum .md5 60) (encode (.upd4 0))).resetIn = false) ∧
    (∃ t, step (withOp (accum .md5 55) (encode .final)) = .next t) ∧
    (∃ t, step (withOp (accum .md5 56) (encode .final)) = .next t) ∧ (∃ t, step (busy .md5) = .next t) :=
  ⟨⟨_, rfl, rfl⟩, ⟨_, rfl⟩, ⟨_, rfl⟩, ⟨_, rfl⟩⟩

/-- Engines in every lifecycle state meet the invariants, and step. -/
theorem witness_StepKeepsTheInvariants :
    State.reset.Inv ∧ (ready .sha1).Inv ∧ (accum .md5 63).Inv ∧ (busy .sha1).Inv ∧ (∃ t, step (busy .sha1) = .next t) :=
  ⟨by decide, by decide, by decide +kernel, by decide, ⟨_, rfl⟩⟩

theorem witness_StepKeepsTheErrorRecordLegal :
    poisoned.ErrorRecordLegal ∧ (ready .md5).ErrorRecordLegal ∧
      ∃ t, step (withOp (ready .md5) ⟨2, true, 0x08, 5⟩) = .next t :=
  ⟨by decide, by decide, ⟨_, rfl⟩⟩

/-- Two engines with FILL 1 that differ in a stale byte, before FINAL. -/
theorem witness_StaleBytesAreNeverObserved :
    let s := withOp (accum .md5 1) (encode .final)
    let t := { s with buf := [(0, 0x61), (1, 0x77)] }
    Memory.wf s.buf ∧ Memory.wf t.buf ∧ s.SameButStale t ∧ s ≠ t ∧ (∃ s', step s = .next s') ∧ ∃ t', step t = .next t' :=
  ⟨by decide, by decide, ⟨rfl, by decide⟩, by decide, ⟨_, rfl⟩, ⟨_, rfl⟩⟩

theorem witness_CoreRetiresTheOldestBlock :
    (busy .md5).resetIn = false ∧ (busy .md5).pq = abcBlock .md5 :: [] ∧ (busy .md5).port = [] ∧ (busy .md5).alg = .md5 ∧
      (busy .sha1).alg = .sha1 := by decide

/-- The four free words, and the ones next to them: another register, another size, a write. -/
theorem test_free :
    (∀ off ∈ [(0x00 : BitVec 7), 0x08, 0x0C, 0x34], free ⟨2, false, off, 0⟩ = true) ∧
      free ⟨2, false, 0x04, 0⟩ = false ∧ free ⟨2, false, 0x38, 0⟩ = false ∧ free ⟨0, false, 0x08, 0⟩ = false ∧
      free ⟨2, true, 0x08, 0⟩ = false := by decide

/-- An illegal word is held like any other: the retire comes first (70_reset_and_hazards.md R341). -/
theorem test_illegal_word_is_held :
    let s := withOp (busy .md5) ⟨2, true, 0x04, 3⟩
    nextAction s = .retire ∧ free ⟨2, true, 0x04, 3⟩ = false ∧ decode ⟨2, true, 0x04, 3⟩ = .error .illegalCmd := by decide

/-- A held read with a free read behind it on its path and a held command behind it on another. -/
theorem witness_HeldOperationRunsAfterTheRetires :
    let s := { busy .sha1 with port := [⟨0, encode .rdDigest0⟩, ⟨0, encode .rdStatus⟩, ⟨1, encode .nop⟩] }
    s.resetIn = false ∧ s.port = ⟨0, encode .rdDigest0⟩ :: [⟨0, encode .rdStatus⟩, ⟨1, encode .nop⟩] ∧
      free (encode .rdDigest0) = false ∧
      (∀ q ∈ [(⟨0, encode .rdStatus⟩ : Request), ⟨1, encode .nop⟩], free q.bow = false ∨ q.path = 0) ∧
      decode (encode .rdDigest0) = .ok .rdDigest0 := by decide

/-- A free read on path 1 behind a held read and a held illegal word on path 0. -/
theorem witness_FreeReadsOvertakeHeldOperationsOfOtherPaths :
    let held : List Request := [⟨0, encode .rdDigest0⟩, ⟨0, ⟨0, false, 0x08, 0⟩⟩]
    let s := { busy .sha1 with port := held ++ [(⟨1, encode .rdStatus⟩ : Request)] }
    s.resetIn = false ∧ s.pq ≠ [] ∧ s.port = held ++ [(⟨1, encode .rdStatus⟩ : Request)] ∧ free (encode .rdStatus) = true ∧
      decode (encode .rdStatus) = .ok .rdStatus ∧ (∀ q ∈ held, free q.bow = false ∧ q.path ≠ 1) := by decide

theorem witness_EveryBlockRetires :
    let s := { busy .md5 with port := List.replicate 3 ⟨0, encode .rdStatus⟩ }
    s.resetIn = false ∧ s.pq = abcBlock .md5 :: [] := by decide

/-- A busy engine with an empty port; and loops that end, the second behind an earlier RD.CAUSE, whose bit 3 is 0 too. -/
theorem witness_WaitIdleEnds :
    ((busy .md5).resetIn = false ∧ (busy .md5).port = []) ∧ (∃ t, waitIdle 1 (ready .md5) = some t) ∧
      waitIdle 1 (withOp (ready .md5) (encode .rdCause)) = none ∧
      ∃ t, waitIdle 2 (withOp (ready .md5) (encode .rdCause)) = some t :=
  ⟨by decide, ⟨_, rfl⟩, rfl, ⟨_, rfl⟩⟩

/-- On a busy engine with a command at the port: the retire, the command, the poll. -/
theorem test_waitIdle_behind_a_command :
    waitIdle 2 (withOp (busy .md5) (encode .nop)) = none ∧
      (waitIdle 3 (withOp (busy .md5) (encode .nop))).map statusWord = some 0x00000003 := by decide +kernel

theorem witness_RotlMovesEveryBit : 0 < 1 ∧ 1 < 32 ∧ 31 < 32 ∧ rotl 0x80000000 1 = 1 ∧ rotl 1 31 = 0x80000000 := by decide

/-- The first and last step of each round. -/
theorem witness_Md5StepsAndFeedForward : ∀ i ∈ [0, 15, 16, 31, 32, 47, 48, 63], i < 64 := by decide

theorem witness_Sha1ScheduleFollowsItsRecurrence :
    (∀ j ∈ [0, 15], j < 16) ∧ ∀ t ∈ [16, 79], 16 ≤ t ∧ t < 80 := by decide

theorem witness_Sha1StepsAndFeedForward : ∀ t ∈ [0, 19, 20, 39, 40, 59, 60, 79], t < 80 := by decide

/-- "hash" and "cat", against seven single bytes. -/
theorem witness_ChunkingDoesNotMatter :
    let xs : List Instr := [.upd4 0x68736168, .upd3 0x00746163]
    let ys : List Instr := [.upd1 0x68, .upd1 0x61, .upd1 0x73, .upd1 0x68, .upd1 0x63, .upd1 0x61, .upd1 0x74]
    (ready .md5).resetIn = false ∧ (ready .md5).pq = [] ∧ (ready .md5).err = false ∧ (ready .md5).life = .ready ∧
      (∀ i ∈ xs, isDataWrite i = true) ∧ (∀ i ∈ ys, isDataWrite i = true) ∧ streamBytes xs = streamBytes ys := by decide

theorem witness_EngineHashesTheStream :
    let xs : List Instr := [.upd4 0x68736168, .upd3 0x00746163]
    let s := { poisoned with port := requests 0 (initInstr .md5 :: xs ++ [Instr.final]) }
    s.resetIn = false ∧ s.pq = [] ∧ (∀ i ∈ xs, isDataWrite i = true) ∧
      s.port = requests 0 (initInstr .md5 :: xs ++ [Instr.final]) := by decide

/-- Two windows, side by side, with the addresses where they meet; a step of one and not of the other. -/
theorem witness_InstancesAreIndependent :
    let p : Platform := [⟨0x1000, State.reset⟩, ⟨0x1080, State.reset⟩]
    Platform.wf p ∧ p[0]? = some ⟨0x1000, State.reset⟩ ∧ p[1]? = some ⟨0x1080, State.reset⟩ ∧
      inWindow 0x1000 0x107F = true ∧ inWindow 0x1000 0x1080 = false ∧ inWindow 0x1080 0x1080 = true ∧
      inWindow 0x1080 0x107F = false := by decide

end Sys2Proof.Tests
end

section
/-! The 32-bit rotation of 00_scope.md R12, bit by bit. -/

namespace Sys2Proof.Machine

/-- The bits below `n` are the top `n` bits of `x`. -/
theorem getLsbD_rotl_of_lt (x : Word) {n i : Nat} (hi : i < n) :
    (rotl x n).getLsbD i = x.getLsbD (32 - n + i) := by
  simp [rotl, hi]

/-- The bits from `n` up are those of `x`, moved up by `n`: the part shifted down does not reach them. -/
theorem getLsbD_rotl_of_ge (x : Word) {n i : Nat} (hn : n < 32) (hi : i < 32) (hni : n ≤ i) :
    (rotl x n).getLsbD i = x.getLsbD (i - n) := by
  have beyond : x.getLsbD (32 - n + i) = false := BitVec.getLsbD_of_ge x _ (by omega)
  simp [rotl, hi, Nat.not_lt.mpr hni, beyond, BitVec.getLsbD_eq_getElem, Nat.sub_lt_of_lt hi]

/-- Bit `i` of the rotated word is bit `(i - n) mod 32` of `x`. -/
theorem getLsbD_rotl (x : Word) {n i : Nat} (hn : n < 32) (hi : i < 32) :
    (rotl x n).getLsbD i = x.getLsbD ((i + 32 - n) % 32) := by
  rcases Nat.lt_or_ge i n with hlt | hge
  · have source : (i + 32 - n) % 32 = 32 - n + i := by omega
    rw [source, getLsbD_rotl_of_lt x hlt]
  · have source : (i + 32 - n) % 32 = i - n := by omega
    rw [source, getLsbD_rotl_of_ge x hn hi hge]

/-- Settles O41: the formula is R12's own, and the bits follow by whether `i` lies below the amount. -/
theorem rotlMovesEveryBit : Obligations.RotlMovesEveryBit := by
  intro x n i _ hn hi
  exact ⟨rfl, getLsbD_rotl x hn hi⟩

end Sys2Proof.Machine
end

section
/-! What a step does to the registers of the stream (10_state.md R31 to R43), said once for the rules of the whole
machine: which of H, BUF, FILL, LEN, ALG, STATE and PQ it writes, and on what condition. -/

namespace Sys2Proof.Machine

/-- `t` has the stream registers of `s`; the error record, the interface and the counters may differ. -/
structure SameStream (s t : State) : Prop where
  h : t.h = s.h
  buf : t.buf = s.buf
  fill : t.fill = s.fill
  len : t.len = s.len
  alg : t.alg = s.alg
  life : t.life = s.life
  pq : t.pq = s.pq

namespace SameStream

theorem refl (s : State) : SameStream s s := ⟨rfl, rfl, rfl, rfl, rfl, rfl, rfl⟩

theorem trans {s t u : State} (hst : SameStream s t) (htu : SameStream t u) : SameStream s u :=
  ⟨htu.h.trans hst.h, htu.buf.trans hst.buf, htu.fill.trans hst.fill, htu.len.trans hst.len, htu.alg.trans hst.alg,
    htu.life.trans hst.life, htu.pq.trans hst.pq⟩

theorem respond (r : Response) (s : State) : SameStream s (s.respond r) := ⟨rfl, rfl, rfl, rfl, rfl, rfl, rfl⟩

theorem okWrite (s : State) : SameStream s s.okWrite := respond _ s

theorem takeRequest (rest : List Request) (s : State) : SameStream s (takeRequest rest s) :=
  ⟨rfl, rfl, rfl, rfl, rfl, rfl, rfl⟩

theorem setErr (c : Code) (b : Bow) (s : State) : SameStream s (setErr c b s) := by
  constructor <;> simp

theorem rejectEffect (e : Reject) (r : Request) (s : State) : SameStream s (rejectEffect e r s) := by
  constructor <;> simp

/-! The stream operations read nothing but the stream registers. -/

theorem startStream {s t : State} (hst : SameStream s t) (alg : Alg) :
    SameStream (startStream alg s) (startStream alg t) :=
  ⟨rfl, rfl, rfl, rfl, rfl, rfl, hst.pq⟩

theorem appendByte {s t : State} (hst : SameStream s t) (b : Byte) : SameStream (appendByte s b) (appendByte t b) := by
  have hlt := s.fill.isLt
  rcases Nat.lt_or_ge (s.fill.toNat + 1) 64 with hroom | hfull
  · rw [appendByte_of_lt hroom, appendByte_of_lt (by rwa [hst.fill]), hst.buf, hst.fill]
    exact ⟨hst.h, rfl, rfl, hst.len, hst.alg, hst.life, hst.pq⟩
  · have hlast : s.fill.toNat + 1 = 64 := by omega
    rw [appendByte_of_full hlast, appendByte_of_full (by rwa [hst.fill]), hst.buf, hst.fill, hst.pq]
    exact ⟨hst.h, rfl, rfl, hst.len, hst.alg, hst.life, rfl⟩

theorem foldl_appendByte {s t : State} (hst : SameStream s t) (bs : List Byte) :
    SameStream (bs.foldl Machine.appendByte s) (bs.foldl Machine.appendByte t) := by
  induction bs generalizing s t with
  | nil => exact hst
  | cons b bs ih => exact ih (hst.appendByte b)

theorem appendBytes {s t : State} (hst : SameStream s t) (bs : List Byte) :
    SameStream (appendBytes bs s) (appendBytes bs t) := by
  have hfold := hst.foldl_appendByte bs
  refine ⟨hfold.h, hfold.buf, hfold.fill, ?_, hfold.alg, rfl, hfold.pq⟩
  simp only [Machine.appendBytes, hfold.len]

theorem finishStream {s t : State} (hst : SameStream s t) : SameStream (finishStream s) (finishStream t) := by
  constructor <;> simp [finishStream_pq, hst.h, hst.buf, hst.fill, hst.len, hst.alg, hst.pq]

end SameStream

/-! A data write leaves H and ALG alone. -/

@[simp] theorem appendBytes_h (bs : List Byte) (s : State) : (appendBytes bs s).h = s.h := by
  obtain ⟨hh, -⟩ := foldl_appendByte_frame bs s
  exact hh

@[simp] theorem appendBytes_alg (bs : List Byte) (s : State) : (appendBytes bs s).alg = s.alg := by
  obtain ⟨-, -, halg, -⟩ := foldl_appendByte_frame bs s
  exact halg

/-! Which operations may run while blocks are queued. -/

theorem isDataWrite_eq (i : Instr) : isDataWrite i = !i.takesNoOperand := by
  cases i <;> rfl

theorem isWrite_of_isDataWrite {i : Instr} (h : isDataWrite i = true) : i.isWrite = true := by
  cases i <;> simp_all [isDataWrite, Instr.isWrite]

/-- A write is never free, so it is accepted on an empty queue only (70_reset_and_hazards.md R340, R341). -/
theorem queue_empty_of_write {pq : List Memory} {b : Bow} {i : Instr} (hwhen : pq = [] ∨ free b = true)
    (hd : decode b = .ok i) (hw : i.isWrite = true) : pq = [] := by
  refine hwhen.resolve_right fun hfree => ?_
  rcases decode_of_free hfree with hf | hf | hf | hf <;>
    · rw [hf] at hd
      cases hd
      cases hw

/-- What one step does to the stream registers. -/
inductive StreamStep (s t : State) : Prop where
  /-- The reset event. -/
  | reset (hr : s.resetIn = true) (h : t = resetEvent s)
  /-- No stream register is written: the idle step, a read, NOP, an ignored command, an error. -/
  | kept (h : SameStream s t)
  /-- The core retires the head of the queue. -/
  | retired (blk : Memory) (rest : List Memory) (hq : s.pq = blk :: rest) (h : t = retire s)
  /-- INIT. -/
  | started (alg : Alg) (ha : s.Accepts (initInstr alg)) (hq : s.pq = []) (h : SameStream (startStream alg s) t)
  /-- A data write that passes the gate. -/
  | appended (i : Instr) (hi : isDataWrite i = true) (ha : s.Accepts i) (he : s.err = false)
      (hl : s.life = .ready ∨ s.life = .accum) (hq : s.pq = []) (h : SameStream (appendBytes (dataBytes (encode i)) s) t)
  /-- A FINAL that passes the gate. -/
  | finished (ha : s.Accepts .final) (he : s.err = false) (hl : s.life = .ready ∨ s.life = .accum) (hq : s.pq = [])
      (h : SameStream (finishStream s) t)

/-- Every step is one of these. -/
theorem step_streamStep {s t : State} (h : step s = .next t) : StreamStep s t := by
  rcases step_effect h with ⟨hr, rfl⟩ | rfl | ⟨-, hq, rfl⟩ | ⟨r, rest, -, ha, hwhen, heff⟩
  · exact .reset hr rfl
  · exact .kept (.refl t)
  · obtain ⟨blk, rest, hq⟩ := List.exists_cons_of_ne_nil hq
    exact .retired blk rest hq rfl
  · have taken := SameStream.takeRequest rest s
    cases heff with
    | answered resp h => exact .kept (h ▸ taken.trans (.respond ..))
    | started alg hd h =>
      have hd : decode r.bow = .ok (initInstr alg) := by cases alg <;> exact hd
      have hq := queue_empty_of_write hwhen hd (by cases alg <;> rfl)
      exact .started alg ⟨r, rest, ha, hd⟩ hq (h ▸ (taken.startStream alg).trans (.okWrite _))
    | appended i hd hi he hl h =>
      have hi : isDataWrite i = true := by rw [isDataWrite_eq, hi]; rfl
      have hq := queue_empty_of_write hwhen hd (isWrite_of_isDataWrite hi)
      exact .appended i hi ⟨r, rest, ha, hd⟩ he hl hq (h ▸ (taken.appendBytes _).trans (.okWrite _))
    | finished hd he hl h =>
      have hq := queue_empty_of_write hwhen hd rfl
      exact .finished ⟨r, rest, ha, hd⟩ he hl hq (h ▸ taken.finishStream.trans (.okWrite _))
    | misused i hd hi c hc he h => exact .kept (h ▸ (taken.trans (.setErr ..)).trans (.okWrite _))
    | rejected e hd h => exact .kept (h ▸ taken.trans (.rejectEffect ..))

end Sys2Proof.Machine
end

section
/-! The invariants of 10_state.md R57: each operation on the stream registers keeps them. -/

namespace Sys2Proof.Machine

/-- The invariants speak of the stream registers only. -/
theorem inv_of_sameStream {s t : State} (hst : SameStream s t) (hs : s.Inv) : t.Inv := by
  obtain ⟨hh, hbuf, hfill, hlen, halg, hlife, hpq⟩ := hst
  simpa only [State.Inv, State.MemoriesWf, State.FillCountsLen, State.UninitIsReset, State.ReadyIsFresh,
    State.FinalIsEmpty, State.QueueShort, State.Md5FifthWordZero, hh, hbuf, hfill, hlen, halg, hlife, hpq] using hs

/-- R57 on the values of R58: only the clauses for UNINIT are not empty. -/
theorem inv_reset : State.reset.Inv := by
  refine ⟨⟨Memory.wf_zero, by simp [State.reset]⟩, fun _ => rfl, fun _ => ⟨rfl, rfl, rfl, rfl, rfl, rfl⟩, ?_, ?_,
    Nat.zero_le 2, fun _ => rfl⟩ <;> exact fun h => by cases h

theorem inv_resetEvent (s : State) : (resetEvent s).Inv :=
  inv_of_sameStream (s := State.reset) ⟨rfl, rfl, rfl, rfl, rfl, rfl, rfl⟩ inv_reset

/-- MD5 compression leaves word 4 alone (40_md5_transform.md R130). -/
theorem compress_md5_h4 {alg : Alg} (ha : alg = .md5) (h : Chain) (blk : Nat → Byte) :
    (compress alg h blk).h4 = h.h4 := by
  subst ha
  have feedForward : ∃ x : Md5Regs, compress .md5 h blk = ⟨h.h0 + x.a, h.h1 + x.b, h.h2 + x.c, h.h3 + x.d, h.h4⟩ :=
    ⟨_, rfl⟩
  obtain ⟨x, hx⟩ := feedForward
  rw [hx]

/-- A retire happens in ACCUM and FINAL only, and shortens the queue. -/
theorem inv_retire {s : State} {blk : Memory} {rest : List Memory} (hq : s.pq = blk :: rest) (hs : s.Inv) :
    (retire s).Inv := by
  obtain ⟨⟨hbuf, hqueue⟩, hfill, huninit, hready, hfinal, hshort, hfifth⟩ := hs
  have not_empty : s.pq ≠ [] := by simp [hq]
  have hword4 (ha : s.alg = .md5) := compress_md5_h4 ha s.h (Memory.read blk)
  rw [retire_of_cons hq]
  generalize compress s.alg s.h (Memory.read blk) = result at hword4 ⊢
  refine ⟨⟨hbuf, fun m hm => hqueue m ?_⟩, hfill, fun hl => ?_, fun hl => ?_, hfinal, ?_,
    fun ha => (hword4 ha).trans (hfifth ha)⟩
  · rw [hq]; exact List.mem_cons_of_mem blk hm
  · obtain ⟨-, -, -, -, hempty, -⟩ := huninit hl
    exact absurd hempty not_empty
  · obtain ⟨-, -, hempty, -⟩ := hready hl
    exact absurd hempty not_empty
  · simp only [State.QueueShort, hq, List.length_cons] at hshort ⊢
    omega

/-- INIT on an empty queue starts a fresh stream (42_stream_commands.md R204, R205). -/
theorem inv_startStream (alg : Alg) {s : State} (hq : s.pq = []) : (startStream alg s).Inv := by
  refine ⟨⟨Memory.wf_zero, by simp [hq]⟩, fun _ => rfl, ?_, fun _ => ⟨rfl, rfl, hq, rfl, rfl⟩, ?_, by simp [hq], ?_⟩
  · exact fun h => by cases h
  · exact fun h => by cases h
  · exact fun (ha : alg = .md5) => by subst ha; rfl

/-! Appending bytes (42_stream_commands.md R201). -/

theorem appendByte_wf_buf {s : State} (hs : Memory.wf s.buf) (b : Byte) : Memory.wf (appendByte s b).buf := by
  have hwf := Memory.wf_write hs s.fill.isLt b
  rcases Nat.lt_or_ge (s.fill.toNat + 1) 64 with hroom | hfull
  · rwa [appendByte_of_lt hroom]
  · have hlt := s.fill.isLt
    rwa [appendByte_of_full (by omega)]

theorem appendByte_memoriesWf {s : State} (hs : s.MemoriesWf) (b : Byte) : (appendByte s b).MemoriesWf := by
  obtain ⟨hbuf, hqueue⟩ := hs
  have hlt := s.fill.isLt
  refine ⟨appendByte_wf_buf hbuf b, fun m hm => ?_⟩
  rcases Nat.lt_or_ge (s.fill.toNat + 1) 64 with hroom | hfull
  · rw [appendByte_of_lt hroom] at hm
    exact hqueue m hm
  · rw [appendByte_of_full (by omega)] at hm
    rcases List.mem_append.mp hm with hm | hm
    · exact hqueue m hm
    · rw [List.mem_singleton.mp hm]
      exact Memory.wf_write hbuf hlt b

theorem foldl_appendByte_memoriesWf {s : State} (hs : s.MemoriesWf) (bs : List Byte) :
    (bs.foldl appendByte s).MemoriesWf := by
  induction bs generalizing s with
  | nil => exact hs
  | cons b bs ih => exact ih (appendByte_memoriesWf hs b)

/-- FILL counts the bytes modulo 64. -/
theorem foldl_appendByte_fill (bs : List Byte) (s : State) :
    (bs.foldl appendByte s).fill.toNat = (s.fill.toNat + bs.length) % 64 := by
  induction bs generalizing s with
  | nil => exact (Nat.mod_eq_of_lt s.fill.isLt).symm
  | cons b bs ih => rw [List.foldl_cons, ih, appendByte_fill, List.length_cons]; omega

/-- At most 64 bytes enqueue at most one block (70_reset_and_hazards.md R349). -/
theorem foldl_appendByte_pq_length {bs : List Byte} (hn : bs.length ≤ 64) (s : State) :
    (bs.foldl appendByte s).pq.length ≤ s.pq.length + 1 := by
  rcases Nat.lt_or_ge (s.fill.toNat + bs.length) 64 with hroom | hfull
  · rw [foldl_appendByte_of_lt bs s hroom]
    exact Nat.le_succ _
  · rw [foldl_appendByte_of_full bs s hfull hn]
    simp

theorem dataBytes_length_le (b : Bow) : (dataBytes b).length ≤ 4 := by
  have := (b.off.extractLsb' 2 2).isLt
  simp only [dataBytes, updCount, List.length_map, List.length_range]
  omega

/-- A data write keeps FILL = LEN mod 64, the canonical form, and the queue short, since it runs on an empty queue. -/
theorem inv_appendBytes {bs : List Byte} (hn : bs.length ≤ 64) {s : State} (hl : s.life = .ready ∨ s.life = .accum)
    (hq : s.pq = []) (hs : s.Inv) : (appendBytes bs s).Inv := by
  obtain ⟨hmem, hfill, -, -, -, -, hfifth⟩ := hs
  obtain ⟨-, hlen, -⟩ := foldl_appendByte_frame bs s
  have hfill : s.fill.toNat = s.len.toNat % 64 := hfill (by rcases hl with hl | hl <;> simp [hl])
  refine ⟨foldl_appendByte_memoriesWf hmem bs, fun _ => ?_, ?_, ?_, ?_, ?_, ?_⟩
  · simp only [appendBytes, foldl_appendByte_fill, hlen, BitVec.toNat_add, BitVec.toNat_ofNat]
    omega
  · exact fun h => by cases h
  · exact fun h => by cases h
  · exact fun h => by cases h
  · have := foldl_appendByte_pq_length hn s
    simp only [hq, List.length_nil] at this
    exact Nat.le_succ_of_le this
  · simpa only [State.Md5FifthWordZero, appendBytes_h, appendBytes_alg] using hfifth

/-- FINAL leaves one or two blocks in canonical form and an empty buffer (43_finalize.md R230, R238). -/
theorem inv_finishStream {s : State} (hq : s.pq = []) (hs : s.Inv) : (finishStream s).Inv := by
  obtain ⟨⟨hbuf, -⟩, -, -, -, -, -, hfifth⟩ := hs
  have hpad : Memory.wf (padBlock s.buf s.fill.toNat) := wf_padBlock hbuf s.fill.isLt
  have hlast {m : Memory} (hm : Memory.wf m) : Memory.wf (Memory.writeBytes m 56 (lengthField s.alg s.len)) :=
    Memory.wf_writeBytes hm (by rw [lengthField_length])
  have hqueue := finishStream_pq s
  rw [hq, List.nil_append] at hqueue
  refine ⟨⟨Memory.wf_zero, fun m hm => ?_⟩, fun h => absurd rfl h, ?_, ?_, fun _ => ⟨rfl, rfl⟩, ?_, ?_⟩
  · rw [hqueue] at hm
    split at hm
    · simp only [List.mem_cons, List.not_mem_nil, or_false] at hm
      rcases hm with rfl | rfl
      · exact hpad
      · exact hlast Memory.wf_zero
    · rw [List.mem_singleton.mp hm]
      exact hlast hpad
  · exact fun h => by cases h
  · exact fun h => by cases h
  · show (finishStream s).pq.length ≤ 2
    rw [hqueue]
    split <;> simp
  · simpa only [State.Md5FifthWordZero, finishStream_h, finishStream_alg] using hfifth

/-- Settles O34: by what a step does to the stream registers, one invariance lemma for each case. -/
theorem stepKeepsTheInvariants : Obligations.StepKeepsTheInvariants := by
  intro s t hs hstep
  cases step_streamStep hstep with
  | reset _ h => rw [h]; exact inv_resetEvent s
  | kept h => exact inv_of_sameStream h hs
  | retired blk rest hq h => rw [h]; exact inv_retire hq hs
  | started alg _ hq h => exact inv_of_sameStream h (inv_startStream alg hq)
  | appended i _ _ _ hl hq h =>
    have hn : (dataBytes (encode i)).length ≤ 64 := (dataBytes_length_le _).trans (by decide)
    exact inv_of_sameStream h (inv_appendBytes hn hl hq hs)
  | finished _ _ _ hq h => exact inv_of_sameStream h (inv_finishStream hq hs)

end Sys2Proof.Machine
end

section
/-! Only the named writers write H, ALG and STATE (10_state.md R31, R38, R39). -/

namespace Sys2Proof.Machine

/-- Settles O30: the byte appends and FINAL leave H alone, so INIT, a retire and reset are the writers. -/
theorem onlyInitRetireAndResetWriteH : Obligations.OnlyInitRetireAndResetWriteH := by
  intro s t hstep
  cases step_streamStep hstep with
  | reset hr h => exact .inr (.inl ⟨hr, by rw [h, resetEvent_h]⟩)
  | kept h => exact .inl h.h
  | retired blk rest hq h =>
    refine .inr (.inr (.inr (.inr ⟨blk, ?_, ?_⟩)))
    · rw [h, retire_pq, hq, List.tail_cons]
    · rw [h, retire_of_cons hq]
      cases s.alg <;> rfl
  | started alg ha _ h =>
    have hh : t.h = initialValue alg := h.h
    cases alg with
    | md5 => exact .inr (.inr (.inl ⟨ha, hh⟩))
    | sha1 => exact .inr (.inr (.inr (.inl ⟨ha, hh⟩)))
  | appended i _ _ _ _ _ h => exact .inl (h.h.trans (appendBytes_h _ s))
  | finished _ _ _ _ h => exact .inl (h.h.trans (finishStream_h s))

/-- Settles O31: a retire, the byte appends and FINAL leave ALG alone. -/
theorem onlyInitAndResetWriteAlg : Obligations.OnlyInitAndResetWriteAlg := by
  intro s t hstep
  cases step_streamStep hstep with
  | reset hr h => exact .inr (.inl ⟨hr, by rw [h, resetEvent_alg]⟩)
  | kept h => exact .inl h.alg
  | retired _ _ _ h => exact .inl (by rw [h, retire_alg])
  | started alg ha _ h =>
    have halg : t.alg = alg := h.alg
    cases alg with
    | md5 => exact .inr (.inr (.inl ⟨ha, halg⟩))
    | sha1 => exact .inr (.inr (.inr ⟨ha, halg⟩))
  | appended i _ _ _ _ _ h => exact .inl (h.alg.trans (appendBytes_alg _ s))
  | finished _ _ _ _ h => exact .inl (h.alg.trans (finishStream_alg s))

/-- What one step does to STATE (R39, 42_stream_commands.md R202). -/
theorem step_life {s t : State} (hstep : step s = .next t) :
    t.life = s.life ∨
    (t.life = .uninit ∧ s.resetIn = true) ∨
    (t.life = .ready ∧ (s.Accepts .initMd5 ∨ s.Accepts .initSha1)) ∨
    (t.life = .accum ∧ (s.life = .ready ∨ s.life = .accum) ∧ s.err = false ∧ ∃ i, isDataWrite i = true ∧ s.Accepts i) ∨
    (t.life = .final ∧ (s.life = .ready ∨ s.life = .accum) ∧ s.err = false ∧ s.Accepts .final) := by
  cases step_streamStep hstep with
  | reset hr h => exact .inr (.inl ⟨by rw [h, resetEvent_life], hr⟩)
  | kept h => exact .inl h.life
  | retired _ _ _ h => exact .inl (by rw [h, retire_life])
  | started alg ha _ h =>
    refine .inr (.inr (.inl ⟨h.life, ?_⟩))
    cases alg with
    | md5 => exact .inl ha
    | sha1 => exact .inr ha
  | appended i hi ha he hl _ h => exact .inr (.inr (.inr (.inl ⟨h.life, hl, he, i, hi, ha⟩)))
  | finished ha he hl _ h => exact .inr (.inr (.inr (.inr ⟨h.life, hl, he, ha⟩)))

/-- Settles O32: by what the step does to STATE; in each case all but one or two clauses speak of another STATE. -/
theorem lifecycleFollowsItsTable : Obligations.LifecycleFollowsItsTable := by
  intro s t hstep
  rcases step_life hstep with hsame | ⟨ht, hr⟩ | ⟨ht, ha⟩ | ⟨ht, hl, he, hw⟩ | ⟨ht, hl, he, ha⟩
  · rw [hsame]
    exact ⟨.inl, .inl, .inl, .inl, .inl⟩
  · simp [ht, hr]
  · simp [ht, ha]
  · rcases hl with hl | hl <;> simp [ht, hl, he, hw]
  · rcases hl with hl | hl <;> simp [ht, hl, he, ha]

end Sys2Proof.Machine
end

section
/-! The packed read-only registers, field by field (10_state.md R49, R50, R55). A field of a concatenation is found by
stepping over the parts below it. -/

namespace Sys2Proof.Machine

/-! STATUS. -/

theorem statusWord_life (s : State) : (statusWord s).extractLsb' 0 2 = s.life.bits :=
  BitVec.extractLsb'_append_eq_right

/-- The fields above STATE. -/
theorem statusWord_above_life (s : State) {start len : Nat} (h : 2 ≤ start) :
    (statusWord s).extractLsb' start len =
      (0#18 ++ s.fill ++ 0#3 ++ BitVec.ofBool s.err ++ BitVec.ofBool s.busy ++ BitVec.ofBool (algBit s.alg)).extractLsb'
        (start - 2) len :=
  BitVec.extractLsb'_append_eq_of_le h

theorem statusWord_alg (s : State) : (statusWord s).getLsbD 2 = algBit s.alg := by
  simp only [statusWord, BitVec.getLsbD_append]
  simp

theorem statusWord_err (s : State) : (statusWord s).getLsbD 4 = s.err := by
  simp only [statusWord, BitVec.getLsbD_append]
  simp

theorem statusWord_fill (s : State) : (statusWord s).extractLsb' 8 6 = s.fill := by
  rw [statusWord_above_life s (by decide)]
  simp (disch := decide) only [BitVec.extractLsb'_append_eq_of_le, BitVec.extractLsb'_append_eq_of_add_le]
  exact BitVec.extractLsb'_eq_self

/-- The reserved bits between ERR and FILL, and those above FILL. -/
theorem statusWord_reserved (s : State) :
    (statusWord s).extractLsb' 5 3 = 0 ∧ (statusWord s).extractLsb' 14 18 = 0 := by
  rw [statusWord_above_life s (by decide), statusWord_above_life s (by decide)]
  simp (disch := decide) only [BitVec.extractLsb'_append_eq_of_le, BitVec.extractLsb'_append_eq_of_add_le]
  exact ⟨rfl, rfl⟩

theorem algBit_eq_true {alg : Alg} : algBit alg = true ↔ alg = .sha1 := by
  cases alg <;> simp [algBit]

/-- Settles O22: the word is `statusWord`, and its fields are the lemmas above. -/
theorem statusReadShowsEveryFlag : Obligations.StatusReadShowsEveryFlag := by
  intro s
  obtain ⟨hlow, hhigh⟩ := statusWord_reserved s
  refine ⟨statusWord s, rfl, ?_, ?_, ?_, statusWord_err s, hlow, statusWord_fill s, hhigh⟩
  · rw [statusWord_life]
    cases s.life <;> rfl
  · rw [statusWord_alg, algBit_eq_true]
  · rw [statusWord_bit3, busy_eq_true]

/-! CAUSE. -/

theorem causeWord_code (c : Cause) : (causeWord c).extractLsb' 0 4 = c.code.bits :=
  BitVec.extractLsb'_append_eq_right

/-- The fields above CODE. -/
theorem causeWord_above_code (c : Cause) {start len : Nat} (h : 4 ≤ start) :
    (causeWord c).extractLsb' start len =
      (0#16 ++ BitVec.ofBool c.ew ++ c.eoff ++ 0#4).extractLsb' (start - 4) len :=
  BitVec.extractLsb'_append_eq_of_le h

theorem causeWord_eoff (c : Cause) : (causeWord c).extractLsb' 8 7 = c.eoff := by
  rw [causeWord_above_code c (by decide)]
  simp (disch := decide) only [BitVec.extractLsb'_append_eq_of_le, BitVec.extractLsb'_append_eq_of_add_le]
  exact BitVec.extractLsb'_eq_self

theorem causeWord_ew (c : Cause) : (causeWord c).getLsbD 15 = c.ew := by
  simp only [causeWord, BitVec.getLsbD_append]
  simp

/-- The reserved bits between CODE and EOFF, and those above EW. -/
theorem causeWord_reserved (c : Cause) :
    (causeWord c).extractLsb' 4 4 = 0 ∧ (causeWord c).extractLsb' 16 16 = 0 := by
  rw [causeWord_above_code c (by decide), causeWord_above_code c (by decide)]
  simp (disch := decide) only [BitVec.extractLsb'_append_eq_of_le, BitVec.extractLsb'_append_eq_of_add_le]
  exact ⟨rfl, rfl⟩

/-- Settles O23: the word is `causeWord`, and its fields are the lemmas above. -/
theorem causeReadShowsTheRecord : Obligations.CauseReadShowsTheRecord := by
  intro s
  obtain ⟨hlow, hhigh⟩ := causeWord_reserved s.cause
  refine ⟨causeWord s.cause, rfl, ?_, hlow, causeWord_eoff _, causeWord_ew _, hhigh⟩
  rw [causeWord_code]
  cases s.cause.code <;> rfl

/-! The digest registers. -/

/-- `bswap32` reverses the byte lanes (00_scope.md R12). -/
theorem bswap32_lane (x : Word) {j : Nat} (hj : j < 4) :
    (bswap32 x).extractLsb' (8 * j) 8 = x.extractLsb' (8 * (3 - j)) 8 := by
  show (x.extractLsb' 0 8 ++ x.extractLsb' 8 8 ++ x.extractLsb' 16 8 ++ x.extractLsb' 24 8).extractLsb' (8 * j) 8 = _
  have lanes : j = 0 ∨ j = 1 ∨ j = 2 ∨ j = 3 := by omega
  rcases lanes with rfl | rfl | rfl | rfl <;>
    simp (disch := decide) only [BitVec.extractLsb'_append_eq_of_le, BitVec.extractLsb'_append_eq_of_add_le] <;>
    exact BitVec.extractLsb'_eq_self

/-- The lanes of DIGESTk by mode (R55, 44_register_access.md R265). -/
theorem digestWord_lane (alg : Alg) (h : Chain) {k j : Nat} (hk : k < 5) (hj : j < 4) :
    (digestWord alg h k).extractLsb' (8 * j) 8 =
      if alg = .sha1 then (h.word k).extractLsb' (8 * (3 - j)) 8
      else if k = 4 then 0
      else (h.word k).extractLsb' (8 * j) 8 := by
  cases alg with
  | sha1 => exact (bswap32_lane _ hj).trans (if_pos rfl).symm
  | md5 =>
    rw [if_neg (by decide)]
    by_cases hk4 : k = 4
    · simp [digestWord, hk4]
    · rw [if_neg hk4, digestWord, if_pos (by omega)]

/-- RD.DIGESTk answers with `digestWord` of its own index (30_encoding.md R104). -/
theorem exec_rdDigest {s : State} {k : Nat} {i : Instr} {word : Word}
    (h : (k, i, word) ∈ [(0, Instr.rdDigest0, s.h.h0), (1, .rdDigest1, s.h.h1), (2, .rdDigest2, s.h.h2),
      (3, .rdDigest3, s.h.h3), (4, .rdDigest4, s.h.h4)]) :
    k < 5 ∧ word = s.h.word k ∧ exec i s = .next (s.okRead (digestWord s.alg s.h k)) := by
  simp only [List.mem_cons, List.not_mem_nil, or_false, Prod.mk.injEq] at h
  rcases h with ⟨rfl, rfl, rfl⟩ | ⟨rfl, rfl, rfl⟩ | ⟨rfl, rfl, rfl⟩ | ⟨rfl, rfl, rfl⟩ | ⟨rfl, rfl, rfl⟩ <;>
    exact ⟨by decide, rfl, rfl⟩

/-- Settles O24: the read answers with `digestWord`, whose lanes depend on the mode. -/
theorem digestReadsSerializeH : Obligations.DigestReadsSerializeH := by
  intro s k i word hmem
  obtain ⟨hk, rfl, hread⟩ := exec_rdDigest hmem
  exact ⟨_, hread, fun j hj => digestWord_lane s.alg s.h hk hj⟩

end Sys2Proof.Machine
end

section
/-! Reset and the core's own step (10_state.md R43, R58). -/

namespace Sys2Proof.Machine

/-- Settles O1: the empty memory reads 0 everywhere, and the packed registers are words of zero fields. -/
theorem resetLeavesTheStatedValues : Obligations.ResetLeavesTheStatedValues :=
  ⟨rfl, Memory.read_nil, rfl, rfl, rfl, rfl, rfl, by decide, rfl, rfl, rfl, by decide⟩

/-- The reset event is the whole step while the reset input is asserted (70_reset_and_hazards.md R345). -/
theorem step_of_resetIn {s : State} (hr : s.resetIn = true) : step s = .next (resetEvent s) := by
  unfold step
  rw [nextAction_reset hr]

/-- Settles O2: the step is the reset event, whose fields are those of the reset state. -/
theorem resetInputClearsTheEngine : Obligations.ResetInputClearsTheEngine := fun s hr =>
  ⟨resetEvent s, step_of_resetIn hr, rfl, Memory.read_nil, rfl, rfl, rfl, rfl, rfl, rfl, rfl, rfl, rfl⟩

/-- Settles O4: R57 is `inv_reset`; no error is recorded, so the record is the empty one. -/
theorem resetMeetsTheInvariants : Obligations.ResetMeetsTheInvariants :=
  ⟨inv_reset, fun _ => ⟨rfl, rfl⟩, fun herr => by cases herr⟩

/-- With blocks queued and an empty port the step is a retire (R43). -/
theorem step_of_queue_and_empty_port {s : State} (hr : s.resetIn = false) (hq : s.pq ≠ []) (hp : s.port = []) :
    step s = .next (retire s) := by
  unfold step
  rw [nextAction_retire hr hq (by rw [hp]; rfl)]

/-- Settles O37: the step is a retire, which writes H and PQ. -/
theorem coreRetiresTheOldestBlock : Obligations.CoreRetiresTheOldestBlock := by
  intro s blk rest hr hq hp
  refine ⟨retire s, step_of_queue_and_empty_port hr (by simp [hq]) hp, by rw [retire_pq, hq, List.tail_cons], ?_,
    fun a => by rw [retire_buf], retire_fill s, retire_len s, retire_alg s, retire_life s, retire_err s, retire_cause s,
    retire_errData s, (retire_port s).trans hp, retire_resp s, (retire_resetIn s).trans hr⟩
  rw [retire_of_cons hq]
  cases s.alg <;> rfl

end Sys2Proof.Machine
end

section
/-! The bytes of BUF at and above FILL are never observed (10_state.md R35, U6). Most operations do not look at BUF at all;
a byte append and the padding overwrite the stale bytes before the block that holds them is enqueued. -/

namespace Sys2Proof.Machine

/-- `s` with the buffer `m`. -/
def State.withBuf (s : State) (m : Memory) : State :=
  { s with buf := m }

/-- `m` and `n` have the same bytes below `p`. -/
def AgreeBelow (p : Nat) (m n : Memory) : Prop :=
  ∀ a < p, Memory.read m a = Memory.read n a

/-- Two engines that differ in stale bytes only are one engine with two buffers. -/
theorem sameButStale_withBuf {s : State} {m : Memory} : s.SameButStale (s.withBuf m) ↔ AgreeBelow s.fill.toNat s.buf m :=
  ⟨fun h => h.2, fun h => ⟨rfl, h⟩⟩

theorem sameButStale_refl (s : State) : s.SameButStale s := ⟨rfl, fun _ _ => rfl⟩

/-- `f` maps two engines that differ in stale bytes only to two such engines. -/
def KeepsStale (f : State → State) : Prop :=
  ∀ (s : State) (m : Memory), Memory.wf s.buf → Memory.wf m → AgreeBelow s.fill.toNat s.buf m →
    (f s).SameButStale (f (s.withBuf m))

theorem KeepsStale.sameButStale {f : State → State} (hf : KeepsStale f) {s t : State} (hs : Memory.wf s.buf)
    (ht : Memory.wf t.buf) (hst : s.SameButStale t) : (f s).SameButStale (f t) := by
  obtain ⟨heq, hread⟩ := hst
  have heq : t = s.withBuf t.buf := heq
  rw [heq]
  exact hf s t.buf hs ht hread

/-! Operations that do not look at BUF. -/

/-- `f` neither reads nor writes BUF, and leaves FILL alone. -/
def BufferBlind (f : State → State) : Prop :=
  ∀ (s : State) (m : Memory), f (s.withBuf m) = (f s).withBuf m ∧ (f s).fill = s.fill

namespace BufferBlind

theorem buf {f : State → State} (hf : BufferBlind f) (s : State) : (f s).buf = s.buf := by
  have hcomm := congrArg State.buf (hf s s.buf).1
  exact hcomm

theorem keepsStale {f : State → State} (hf : BufferBlind f) : KeepsStale f := fun s m _ _ hread => by
  obtain ⟨hcomm, hfill⟩ := hf s m
  rw [hcomm, sameButStale_withBuf, hf.buf, hfill]
  exact hread

/-- A response that does not depend on BUF. -/
theorem respond {resp : State → Response} (h : ∀ s m, resp (s.withBuf m) = resp s) :
    BufferBlind fun s => s.respond (resp s) :=
  fun s m => ⟨by simp only [h]; rfl, rfl⟩

theorem setErr (c : Code) (b : Bow) : BufferBlind (setErr c b) := fun s m => by
  refine ⟨?_, setErr_fill s c b⟩
  cases he : s.err with
  | true => rw [setErr_of_err he, setErr_of_err (s := s.withBuf m) he]
  | false => rw [setErr_of_not_err he, setErr_of_not_err (s := s.withBuf m) he]; rfl

theorem takeRequest (rest : List Request) : BufferBlind (takeRequest rest) := fun _ _ => ⟨rfl, rfl⟩

theorem retire : BufferBlind retire := fun s m => by
  refine ⟨?_, retire_fill s⟩
  cases hq : s.pq with
  | nil => rw [retire_of_nil hq, retire_of_nil (s := s.withBuf m) hq]
  | cons blk rest => rw [retire_of_cons hq, retire_of_cons (s := s.withBuf m) hq]; rfl

theorem raiseBusError (c : Code) (r : Request) : BufferBlind (raiseBusError c r) := fun s m => by
  obtain ⟨hcomm, hfill⟩ := setErr c r.bow s m
  exact ⟨by simp only [Machine.raiseBusError, hcomm]; rfl, hfill⟩

theorem rejectEffect (e : Reject) (r : Request) : BufferBlind (rejectEffect e r) := fun s m => by
  cases e with
  | badAccess => exact raiseBusError .badAccess r s m
  | badOffset => exact raiseBusError .badOffset r s m
  | illegalCmd =>
    obtain ⟨hcomm, hfill⟩ := setErr .illegalCmd r.bow s m
    exact ⟨by simp only [Machine.rejectEffect, hcomm]; rfl, hfill⟩

end BufferBlind

namespace KeepsStale

/-- An operation after one that does not look at BUF. -/
theorem comp_blind {f g : State → State} (hg : KeepsStale g) (hf : BufferBlind f) : KeepsStale fun s => g (f s) :=
  fun s m hs hm hread => by
  obtain ⟨hcomm, hfill⟩ := hf s m
  simp only [hcomm]
  exact hg (f s) m (by rwa [hf.buf]) hm (by rwa [hf.buf, hfill])

/-- A write's OKAY after an operation. -/
theorem okWrite {f : State → State} (hf : KeepsStale f) : KeepsStale fun s => (f s).okWrite :=
  fun s m hs hm hread => by
  obtain ⟨heq, hafter⟩ := hf s m hs hm hread
  exact ⟨congrArg State.okWrite heq, hafter⟩

/-- An operation whose results are equal: it leaves no stale byte. -/
theorem of_eq {f : State → State}
    (h : ∀ s m, Memory.wf s.buf → Memory.wf m → AgreeBelow s.fill.toNat s.buf m → f s = f (s.withBuf m)) : KeepsStale f :=
  fun s m hs hm hread => by rw [← h s m hs hm hread]; exact sameButStale_refl _

theorem startStream (alg : Alg) : KeepsStale (startStream alg) := of_eq fun _ _ _ _ _ => rfl

theorem streamGate (b : Bow) {body : State → State} (hbody : KeepsStale body) : KeepsStale (streamGate b body) :=
  fun s m hs hm hread => by
  rcases streamGate_cases b body s with ⟨he, hg⟩ | ⟨he, hl, hg⟩ | ⟨he, hl, hg⟩ | ⟨he, hl, hg⟩ <;> rw [hg]
  · rw [streamGate_of_err (s := s.withBuf m) he]
    exact sameButStale_withBuf.mpr hread
  · rw [streamGate_uninit (s := s.withBuf m) he hl]
    exact (BufferBlind.setErr _ b).keepsStale s m hs hm hread
  · rw [streamGate_final (s := s.withBuf m) he hl]
    exact (BufferBlind.setErr _ b).keepsStale s m hs hm hread
  · rw [streamGate_open (s := s.withBuf m) he hl]
    exact hbody s m hs hm hread

end KeepsStale

/-! Appending bytes. -/

/-- A byte written at `p` makes the bytes up to it agree. -/
theorem AgreeBelow.write {p : Nat} {m n : Memory} (h : AgreeBelow p m n) (hm : Memory.wf m) (hn : Memory.wf n)
    (b : Byte) : AgreeBelow (p + 1) (Memory.write m p b) (Memory.write n p b) := by
  intro a ha
  rw [Memory.read_write hm, Memory.read_write hn]
  by_cases hp : p = a
  · rw [if_pos hp, if_pos hp]
  · rw [if_neg hp, if_neg hp]
    exact h a (by omega)

/-- Memories in canonical form that agree on the 64 bytes are equal. -/
theorem AgreeBelow.eq {m n : Memory} (h : AgreeBelow 64 m n) (hm : Memory.wf m) (hn : Memory.wf n) : m = n := by
  refine Memory.ext_of_wf hm hn fun a => ?_
  rcases Nat.lt_or_ge a 64 with hlt | hge
  · exact h a hlt
  · rw [Memory.read_eq_zero_of_ge hm hge, Memory.read_eq_zero_of_ge hn hge]

/-- The byte that fills the block overwrites its last stale byte, so the enqueued blocks are equal. -/
theorem KeepsStale.appendByte (b : Byte) : KeepsStale (appendByte · b) := fun s m hs hm hread => by
  have hlt := s.fill.isLt
  have hwritten := hread.write hs hm b
  rcases Nat.lt_or_ge (s.fill.toNat + 1) 64 with hroom | hfull
  · have hcount : (s.fill + 1).toNat = s.fill.toNat + 1 := by
      rw [BitVec.toNat_add]
      exact Nat.mod_eq_of_lt hroom
    simp only [appendByte_of_lt hroom, appendByte_of_lt (s := s.withBuf m) hroom]
    exact ⟨rfl, by rwa [hcount]⟩
  · have hlast : s.fill.toNat + 1 = 64 := by omega
    rw [hlast] at hwritten
    have hblock := hwritten.eq (Memory.wf_write hs hlt b) (Memory.wf_write hm hlt b)
    simp only [appendByte_of_full hlast, appendByte_of_full (s := s.withBuf m) hlast]
    exact ⟨by simp only [hblock]; rfl, fun _ _ => by rw [hblock]; rfl⟩

theorem foldl_appendByte_sameButStale (bs : List Byte) {s t : State} (hs : Memory.wf s.buf) (ht : Memory.wf t.buf)
    (hst : s.SameButStale t) : (bs.foldl appendByte s).SameButStale (bs.foldl appendByte t) := by
  induction bs generalizing s t with
  | nil => exact hst
  | cons b bs ih =>
    exact ih (appendByte_wf_buf hs b) (appendByte_wf_buf ht b) ((KeepsStale.appendByte b).sameButStale hs ht hst)

theorem KeepsStale.appendBytes (bs : List Byte) : KeepsStale (appendBytes bs) := fun s m hs hm hread => by
  obtain ⟨heq, hafter⟩ := foldl_appendByte_sameButStale bs hs hm (sameButStale_withBuf.mpr hread)
  exact ⟨congrArg (fun u : State => { u with len := u.len + BitVec.ofNat 64 bs.length, life := .accum }) heq, hafter⟩

/-! FINAL. -/

/-- The padding overwrites every stale byte (43_finalize.md R231). -/
theorem AgreeBelow.padBlock {p : Nat} {m n : Memory} (h : AgreeBelow p m n) (hm : Memory.wf m) (hn : Memory.wf n)
    (hp : p < 64) : padBlock m p = padBlock n p := by
  refine Memory.ext_of_wf (wf_padBlock hm hp) (wf_padBlock hn hp) fun a => ?_
  rw [read_padBlock hm hp, read_padBlock hn hp]
  by_cases ha : a < p
  · rw [if_pos ha, if_pos ha, h a ha]
  · rw [if_neg ha, if_neg ha]

theorem finishStream_eq (s : State) :
    finishStream s = { s with buf := Memory.zero, fill := 0, life := .final, pq := (finishStream s).pq } := by
  unfold finishStream
  dsimp only
  split <;> rfl

/-- FINAL uses BUF for the padded block only. -/
theorem KeepsStale.finishStream : KeepsStale finishStream := of_eq fun s m hs hm hread => by
  have hqueue : (Machine.finishStream (s.withBuf m)).pq = (Machine.finishStream s).pq := by
    rw [finishStream_pq, finishStream_pq, hread.padBlock hs hm s.fill.isLt]
    rfl
  rw [finishStream_eq s, finishStream_eq (s.withBuf m), hqueue]
  rfl

/-! Every operation, and the step. -/

/-- A read answers with a value that does not depend on BUF (20_memory.md R82). -/
theorem exec_read {i : Instr} (hi : i.isWrite = false) :
    ∃ v : State → Word, (∀ s m, v (s.withBuf m) = v s) ∧ ∀ s, exec i s = .next (s.okRead (v s)) := by
  cases i
  case nop | initMd5 | initSha1 | final | upd1 | upd2 | upd3 | upd4 => cases hi
  all_goals exact ⟨_, fun _ _ => rfl, fun _ => rfl⟩

theorem exec_read_keepsStale {i : Instr} (hi : i.isWrite = false) :
    ∃ f, (∀ s, exec i s = .next (f s)) ∧ KeepsStale f := by
  obtain ⟨v, hv, hread⟩ := exec_read hi
  exact ⟨_, hread, (BufferBlind.respond fun s m => by simp only [hv s m]).keepsStale⟩

theorem exec_keepsStale (i : Instr) : ∃ f, (∀ s, exec i s = .next (f s)) ∧ KeepsStale f := by
  have data_write (b : Bow) : KeepsStale fun s => (update b s).okWrite := ((KeepsStale.appendBytes _).streamGate b).okWrite
  cases i
  case nop => exact ⟨_, fun _ => rfl, (BufferBlind.respond fun _ _ => rfl).keepsStale⟩
  case initMd5 => exact ⟨_, fun _ => rfl, (KeepsStale.startStream _).okWrite⟩
  case initSha1 => exact ⟨_, fun _ => rfl, (KeepsStale.startStream _).okWrite⟩
  case final => exact ⟨_, fun _ => rfl, (KeepsStale.finishStream.streamGate _).okWrite⟩
  case upd1 | upd2 | upd3 | upd4 => exact ⟨_, fun _ => rfl, data_write _⟩
  all_goals exact exec_read_keepsStale rfl

theorem perform_keepsStale (r : Request) : ∃ f, (∀ s, perform r s = .next (f s)) ∧ KeepsStale f := by
  cases hd : decode r.bow with
  | ok i =>
    obtain ⟨f, hf, hkeeps⟩ := exec_keepsStale i
    exact ⟨f, fun s => by simp only [perform, hd, hf], hkeeps⟩
  | error e => exact ⟨rejectEffect e r, fun s => by simp only [perform, hd], (BufferBlind.rejectEffect e r).keepsStale⟩

/-- The step, chosen without looking at BUF, is an operation that keeps the bytes stale. -/
theorem step_keepsStale (s : State) : ∃ f, (∀ m, step (s.withBuf m) = .next (f (s.withBuf m))) ∧ KeepsStale f := by
  have same_action (m : Memory) : nextAction (s.withBuf m) = nextAction s := rfl
  cases ha : nextAction s with
  | reset => exact ⟨resetEvent, fun m => by simp only [step, same_action, ha], .of_eq fun _ _ _ _ _ => rfl⟩
  | idle => exact ⟨id, fun m => by simp only [step, same_action, ha, id], fun _ _ _ _ => sameButStale_withBuf.mpr⟩
  | retire => exact ⟨retire, fun m => by simp only [step, same_action, ha], BufferBlind.retire.keepsStale⟩
  | accept r rest =>
    obtain ⟨f, hf, hkeeps⟩ := perform_keepsStale r
    exact ⟨_, fun m => by simp only [step, same_action, ha, hf], hkeeps.comp_blind (.takeRequest rest)⟩

/-- Settles O36: both engines take the same step, which keeps the bytes stale. -/
theorem staleBytesAreNeverObserved : Obligations.StaleBytesAreNeverObserved := by
  intro s t s' t' hs ht hst hs' ht'
  obtain ⟨f, hf, hkeeps⟩ := step_keepsStale s
  have hsf : s' = f s := Host.Outcome.next.inj (hs'.symm.trans (hf s.buf))
  have heq : t = s.withBuf t.buf := hst.1
  have htf : t' = f t := by
    rw [heq] at ht' ⊢
    exact Host.Outcome.next.inj (ht'.symm.trans (hf t.buf))
  rw [hsf, htf]
  exact hkeeps.sameButStale hs ht hst

end Sys2Proof.Machine
end

section
/-! The window of an engine and its port (20_memory.md R81 to R83): what the request at the head of the port does, what a
read leaves unchanged, and which engine of a platform an access or a step reaches. -/

namespace Sys2Proof.Machine

/-! The request the next step accepts. -/

theorem step_of_accept {s : State} {r : Request} {rest : List Request} {i : Instr} (ha : nextAction s = .accept r rest)
    (hd : decode r.bow = .ok i) : step s = exec i (takeRequest rest s) := by
  simp only [step, ha, perform, hd]

/-- An empty queue counts no race (log 3). -/
theorem takeRequest_of_queue_empty {s : State} (hq : s.pq = []) (rest : List Request) :
    takeRequest rest s = { s with port := rest } := by
  simp only [takeRequest, busy_eq_false.mpr hq, Bool.false_eq_true, if_false]

theorem takeRequest_of_queue_ne_nil {s : State} (hq : s.pq ≠ []) (rest : List Request) :
    takeRequest rest s = { s with port := rest, raced := s.raced + 1 } := by
  simp only [takeRequest, busy_eq_true.mpr hq, if_true]

/-- While busy, an enabled free read races the core's retire (70_reset_and_hazards.md R341, log 3). -/
theorem nextAction_of_firstFree {s : State} (hr : s.resetIn = false) (hq : s.pq ≠ []) {r : Request}
    {rest : List Request} (hf : firstFree [] s.port = some (r, rest)) :
    nextAction s = .retire ∨ nextAction s = .accept r rest := by
  have hrace : nextAction s = if coreFirst s then .retire else .accept r rest := by
    unfold nextAction
    rw [if_neg (by simp [hr]), if_pos (busy_eq_true.mpr hq), hf]
  rw [hrace]
  cases coreFirst s with
  | true => exact .inl rfl
  | false => exact .inr rfl

theorem step_of_firstFree {s : State} (hr : s.resetIn = false) (hq : s.pq ≠ []) {r : Request} {rest : List Request}
    (hf : firstFree [] s.port = some (r, rest)) {i : Instr} (hd : decode r.bow = .ok i) :
    step s = .next (retire s) ∨ step s = exec i { s with port := rest, raced := s.raced + 1 } := by
  rcases nextAction_of_firstFree hr hq hf with ha | ha
  · exact .inl (by simp only [step, ha])
  · exact .inr (by rw [step_of_accept ha hd, takeRequest_of_queue_ne_nil hq])

/-- Settles O11: by whether the queue is empty; a free read at the head of the port has nothing of its path before it. -/
theorem stepRunsTheDecodedOperation : Obligations.StepRunsTheDecodedOperation := by
  intro s r rest i hr hp hd
  refine ⟨fun hq => ?_, fun hq hfree => ?_⟩
  · rw [step_of_accept (nextAction_of_not_busy hr hq hp) hd, takeRequest_of_queue_empty hq]
  · have hfound : firstFree [] s.port = some (r, rest) := by
      rw [hp]
      exact firstFree_append (held := []) hfree List.not_mem_nil (by simp)
    exact step_of_firstFree hr hq hfound hd

/-- Settles O20: the 21 operations are reads, and a read answers OKAY with a value of the state. -/
theorem readsOnlyAnswer : Obligations.ReadsOnlyAnswer := by
  intro s i hi
  have hread : i.isWrite = false := by
    revert i
    decide
  obtain ⟨v, -, hv⟩ := exec_read hread
  exact ⟨v s, hv s⟩

/-! Every step answers a next state (60_exceptions.md R300). -/

theorem exec_answers (i : Instr) (s : State) : ∃ t, exec i s = .next t := by
  cases i <;> exact ⟨_, rfl⟩

theorem perform_answers (r : Request) (s : State) : ∃ t, perform r s = .next t := by
  unfold perform
  cases decode r.bow with
  | ok i => exact exec_answers i s
  | error e => exact ⟨_, rfl⟩

theorem step_answers (s : State) : ∃ t, step s = .next t := by
  unfold step
  cases nextAction s with
  | reset | idle | retire => exact ⟨_, rfl⟩
  | accept r rest => exact perform_answers r _

/-! The windows of a platform (R83). -/

theorem inWindow_iff {base addr : Nat} : inWindow base addr = true ↔ base ≤ addr ∧ addr < base + 128 := by
  simp only [inWindow, Bool.and_eq_true, decide_eq_true_eq]

/-- Windows at multiples of 128 do not overlap. -/
theorem base_eq_of_inWindow {b c addr : Nat} (hb : b % 128 = 0) (hc : c % 128 = 0) (hbw : inWindow b addr = true)
    (hcw : inWindow c addr = true) : b = c := by
  rw [inWindow_iff] at hbw hcw
  omega

/-- Inside a window the offset is the low seven bits of the address (00_scope.md R15). -/
theorem bow_of_inWindow {base : Nat} {a : BusAccess} (hb : base % 128 = 0) (hw : inWindow base a.addr = true) :
    a.bow base = ⟨accessSz a.size a.whole, a.write, BitVec.ofNat 7 (a.addr % 128), if a.write then a.data else 0⟩ := by
  rw [inWindow_iff] at hw
  have hoff : a.addr - base = a.addr % 128 := by omega
  rw [BusAccess.bow, hoff]

/-- The SZ column of 30_encoding.md R100. -/
theorem accessSz_of_other {n : Nat} (h1 : n ≠ 1) (h2 : n ≠ 2) (h4 : n ≠ 4) (whole : Bool) : accessSz n whole = 3 := by
  unfold accessSz
  split
  · exact absurd rfl h1
  · exact absurd rfl h2
  · exact absurd rfl h4
  · rfl

/-! One engine among the others (60_exceptions.md R319). -/

/-- What an access does to one engine: the function `Platform.issue` maps. -/
def EngineInstance.offer (a : BusAccess) (e : EngineInstance) : EngineInstance :=
  if Config.accessPolicy a.master a.mode e.base && inWindow e.base a.addr then
    { e with engine := e.engine.arrive ⟨a.path, a.bow e.base⟩ }
  else e

/-- What a step at `base` does to one engine: the function `Platform.stepAt` maps. -/
def EngineInstance.stepIfAt (base : Nat) (e : EngineInstance) : EngineInstance :=
  if e.base = base then
    match step e.engine with
    | .next s => { e with engine := s }
    | .fault _ => e
    | .refused _ => e
  else e

theorem Platform.issue_eq_map (a : BusAccess) (p : Platform) : p.issue a = p.map (EngineInstance.offer a) := rfl

theorem Platform.stepAt_eq_map (base : Nat) (p : Platform) : p.stepAt base = p.map (EngineInstance.stepIfAt base) := rfl

theorem Platform.getElem?_issue (a : BusAccess) {p : Platform} {i : Nat} {e : EngineInstance} (hi : p[i]? = some e) :
    (p.issue a)[i]? = some (e.offer a) := by
  rw [issue_eq_map, List.getElem?_map, hi, Option.map_some]

theorem Platform.getElem?_stepAt (base : Nat) {p : Platform} {i : Nat} {e : EngineInstance} (hi : p[i]? = some e) :
    (p.stepAt base)[i]? = some (e.stepIfAt base) := by
  rw [stepAt_eq_map, List.getElem?_map, hi, Option.map_some]

/-- An access changes an engine only if its address is in the engine's window. -/
theorem inWindow_of_offer_ne {a : BusAccess} {e : EngineInstance} (h : e.offer a ≠ e) : inWindow e.base a.addr = true := by
  by_contra hw
  exact h (if_neg (by simp [hw]))

theorem offer_eq {a : BusAccess} {e : EngineInstance} (hb : e.base % 128 = 0) :
    e.offer a =
      if Config.accessPolicy a.master a.mode e.base = true ∧ e.base ≤ a.addr ∧ a.addr < e.base + 128 then
        { e with engine := e.engine.arrive ⟨a.path, ⟨accessSz a.size a.whole, a.write, BitVec.ofNat 7 (a.addr % 128),
          if a.write then a.data else 0⟩⟩ }
      else e := by
  simp only [EngineInstance.offer, Bool.and_eq_true, ← inWindow_iff]
  split
  next h => rw [bow_of_inWindow hb h.2]
  next => rfl

theorem stepIfAt_of_ne {base : Nat} {e : EngineInstance} (h : e.base ≠ base) : e.stepIfAt base = e := if_neg h

theorem stepIfAt_base (e : EngineInstance) :
    ∃ t, step e.engine = .next t ∧ e.stepIfAt e.base = { e with engine := t } := by
  obtain ⟨t, ht⟩ := step_answers e.engine
  exact ⟨t, ht, by simp only [EngineInstance.stepIfAt, if_true, ht]⟩

/-- Distinct bases: an engine is found by its base. -/
theorem Platform.index_eq_of_base_eq {p : Platform} (hp : p.wf) {i j : Nat} {e f : EngineInstance} (hi : p[i]? = some e)
    (hj : p[j]? = some f) (hbase : e.base = f.base) : i = j := by
  obtain ⟨-, -, hdistinct⟩ := hp
  have hlt : i < (p.map EngineInstance.base).length := by
    rw [List.length_map]
    exact (List.getElem?_eq_some_iff.mp hi).1
  refine (List.getElem?_inj hlt hdistinct).mp ?_
  rw [List.getElem?_map, List.getElem?_map, hi, hj, Option.map_some, Option.map_some, hbase]

/-- The engine at an index where a map shows a change. -/
theorem Platform.exists_changed {p : Platform} {f : EngineInstance → EngineInstance} {i : Nat}
    (h : (p.map f)[i]? ≠ p[i]?) : ∃ e, p[i]? = some e ∧ f e ≠ e := by
  rw [List.getElem?_map] at h
  cases hi : p[i]? with
  | none => exact absurd (by rw [hi]; rfl) h
  | some e => exact ⟨e, rfl, fun he => h (by rw [hi, Option.map_some, he])⟩

/-- A map whose changed engines all have one base changes at most one engine. -/
theorem Platform.changed_index_unique {p : Platform} (hp : p.wf) {f : EngineInstance → EngineInstance}
    (hbase : ∀ e ∈ p, ∀ e' ∈ p, f e ≠ e → f e' ≠ e' → e.base = e'.base) {i j : Nat}
    (hi : (p.map f)[i]? ≠ p[i]?) (hj : (p.map f)[j]? ≠ p[j]?) : i = j := by
  obtain ⟨e, he, hce⟩ := exists_changed hi
  obtain ⟨e', he', hce'⟩ := exists_changed hj
  exact index_eq_of_base_eq hp he he'
    (hbase e (List.mem_of_getElem? he) e' (List.mem_of_getElem? he') hce hce')

/-- Settles O50: an access reaches the engine whose window holds its address, a step the one at its base; windows do not
overlap and bases are distinct, so each changes at most one engine. -/
theorem instancesAreIndependent : Obligations.InstancesAreIndependent := by
  intro p a hp
  have ⟨_, haligned, _⟩ := hp
  refine ⟨fun i e hi => ?_, fun i j => ?_, fun base i e hi => ⟨fun hne => ?_, ?_⟩, fun base i j => ?_,
    rfl, rfl, rfl, rfl, fun n h1 h2 h4 => accessSz_of_other h1 h2 h4 _⟩
  · rw [Platform.getElem?_issue a hi, offer_eq (haligned e (List.mem_of_getElem? hi))]
  · rw [Platform.issue_eq_map]
    exact Platform.changed_index_unique hp fun e he e' he' hce hce' =>
      base_eq_of_inWindow (haligned e he) (haligned e' he') (inWindow_of_offer_ne hce) (inWindow_of_offer_ne hce')
  · rw [Platform.getElem?_stepAt base hi, stepIfAt_of_ne hne]
  · rintro rfl
    obtain ⟨t, ht, hstep⟩ := stepIfAt_base e
    exact ⟨t, ht, by rw [Platform.getElem?_stepAt e.base hi, hstep]⟩
  · have at_base {e : EngineInstance} (hce : e.stepIfAt base ≠ e) : e.base = base := by
      by_contra hne
      exact hce (stepIfAt_of_ne hne)
    rw [Platform.stepAt_eq_map]
    exact Platform.changed_index_unique hp fun e _ e' _ hce hce' => (at_base hce).trans (at_base hce').symm

end Sys2Proof.Machine
end

section
/-! The 42-bit bus operation word and the decoder (30_encoding.md R100 to R109): a word is its fields, the decoder undoes the
encoder, and each name of rejection has its own condition. -/

namespace Sys2Proof

/-! A word and its fields (R100). -/

theorem Bow.ofWord_toWord (b : Bow) : Bow.ofWord b.toWord = b := by
  obtain ⟨sz, w, off, data⟩ := b
  simp only [Bow.ofWord, Bow.toWord, Bow.mk.injEq]
  refine ⟨?_, ?_, ?_, BitVec.extractLsb'_append_eq_right⟩
  · simp (disch := decide) only [BitVec.extractLsb'_append_eq_of_le]
    exact BitVec.extractLsb'_eq_self
  · simp only [BitVec.getLsbD_append]
    simp
  · simp (disch := decide) only [BitVec.extractLsb'_append_eq_of_le, BitVec.extractLsb'_append_eq_of_add_le]
    exact BitVec.extractLsb'_eq_self

theorem Bow.toWord_ofWord (v : BitVec 42) : (Bow.ofWord v).toWord = v := by
  have hw : BitVec.ofBool (v.getLsbD 39) = v.extractLsb' 39 1 := by
    apply BitVec.eq_of_getLsbD_eq
    intro n hn
    obtain rfl : n = 0 := by omega
    simp
  simp only [Bow.toWord, Bow.ofWord, hw, BitVec.extractLsb'_append_extractLsb'_eq_extractLsb']
  exact BitVec.extractLsb'_eq_self

/-- The same access with other data. -/
def Bow.withData (b : Bow) (d : Word) : Bow :=
  { b with data := d }

/-- The upper ten bits of a word are SZ, W and OFF. -/
theorem Bow.toWord_clearData (b : Bow) : (b.withData 0).toWord = b.toWord &&& 0x3FF00000000 := by
  show b.sz ++ BitVec.ofBool b.w ++ b.off ++ 0#32 =
    (b.sz ++ BitVec.ofBool b.w ++ b.off ++ b.data) &&&
      (BitVec.allOnes 2 ++ BitVec.allOnes 1 ++ BitVec.allOnes 7 ++ 0#32)
  simp only [BitVec.and_append, BitVec.and_allOnes, BitVec.and_zero]

theorem Bow.toWord_injective {b c : Bow} (h : b.toWord = c.toWord) : b = c := by
  rw [← Bow.ofWord_toWord b, h, Bow.ofWord_toWord]

/-! Decoding undoes encoding (R105, R107). -/

open Laws.RoundTrip in
@[simp] theorem decode_encode (i : Instr) : decode (encode i) = .ok i := by
  cases i with
  | nop => exact nop
  | initMd5 => exact initMd5
  | initSha1 => exact initSha1
  | final => exact final
  | upd1 d => exact upd1 d
  | upd2 d => exact upd2 d
  | upd3 d => exact upd3 d
  | upd4 d => exact upd4 d
  | rdId => exact rdId
  | rdCmd => exact rdCmd
  | rdStatus => exact rdStatus
  | rdCause => exact rdCause
  | rdData1 => exact rdData1
  | rdData2 => exact rdData2
  | rdData3 => exact rdData3
  | rdData4 => exact rdData4
  | rdState0 => exact rdState0
  | rdState1 => exact rdState1
  | rdState2 => exact rdState2
  | rdState3 => exact rdState3
  | rdState4 => exact rdState4
  | rdErrData => exact rdErrData
  | rdLenLo => exact rdLenLo
  | rdLenHi => exact rdLenHi
  | rdDigest0 => exact rdDigest0
  | rdDigest1 => exact rdDigest1
  | rdDigest2 => exact rdDigest2
  | rdDigest3 => exact rdDigest3
  | rdDigest4 => exact rdDigest4

/-- Settles O6: the fields come back from the word, and the operation from its fields. -/
theorem everyOperationDecodesFromItsWord : Obligations.EveryOperationDecodesFromItsWord := fun i => by
  rw [decodeWord, encodeWord, Bow.ofWord_toWord, decode_encode]

/-- A write has one word only. -/
theorem decode_eq_ok_iff_of_write {b : Bow} {i : Instr} (hw : i.isWrite = true) : decode b = .ok i ↔ encode i = b :=
  ⟨fun h => encode_of_decode_write h hw, fun h => h ▸ decode_encode i⟩

theorem data_of_read {i : Instr} (hr : i.isWrite = false) : i.data = 0 := by
  cases i
  case nop | initMd5 | initSha1 | final | upd1 | upd2 | upd3 | upd4 => cases hr
  all_goals rfl

/-- A read's word is its encoding, but for the ignored DATA (R109). -/
theorem encode_of_decode_read {b : Bow} {i : Instr} (h : decode b = .ok i) (hr : i.isWrite = false) :
    encode i = b.withData 0 := by
  obtain ⟨hsz, hw, hoff, -⟩ := decode_ok h
  rw [encode, data_of_read hr, ← hsz, ← hw, ← hoff, Bow.withData]

/-- The DATA of a read is ignored (R109). -/
theorem decode_withData_of_read {b : Bow} (hr : b.w = false) (d : Word) : decode (b.withData d) = decode b := by
  simp only [decode, Bow.withData, Bow.aligned, hr, Bool.false_eq_true, if_false]

/-- Settles O7: the fields of the word are those of the encoding, DATA included for a write. -/
theorem decodedWordsEncodeBack : Obligations.DecodedWordsEncodeBack := by
  intro v i h
  refine ⟨fun hw => ?_, fun hr => ?_⟩
  · rw [encodeWord, encode_of_decode_write h hw, Bow.toWord_ofWord]
  · rw [encodeWord, encode_of_decode_read h hr, Bow.toWord_clearData, Bow.toWord_ofWord]

/-- Settles O5: the decoder, evaluated on eight closed words. -/
theorem writtenOutWordsDecode : Obligations.WrittenOutWordsDecode := by
  unfold Obligations.WrittenOutWordsDecode
  decide

/-! The command words (R106). -/

theorem decode_cmd (d : Word) : decode ⟨2, true, 0x04, d⟩ = decodeCmd d := by
  simp [decode, Bow.aligned, decodeWrite]

theorem decodeCmd_error {d : Word} {e : Reject} (h : decodeCmd d = .error e) : e = .illegalCmd := by
  unfold decodeCmd at h
  split at h
  · exact (Except.error.inj h).symm
  · split at h
    case h_5 => exact (Except.error.inj h).symm
    all_goals cases h

/-- A command word is rejected if it is none of the four. -/
theorem decodeCmd_eq_illegalCmd_iff {d : Word} :
    decodeCmd d = .error .illegalCmd ↔ d ≠ 0x00000000 ∧ d ≠ 0x00000001 ∧ d ≠ 0x00000101 ∧ d ≠ 0x00000002 := by
  constructor
  · intro h
    refine ⟨?_, ?_, ?_, ?_⟩ <;>
      · rintro rfl
        cases h
  · rintro ⟨h0, h1, h2, h3⟩
    cases h : decodeCmd d with
    | error e => rw [decodeCmd_error h]
    | ok i => rcases decodeCmd_cases h with ⟨-, hd⟩ | ⟨-, hd⟩ | ⟨-, hd⟩ | ⟨-, hd⟩ <;> contradiction

/-- Settles O9: a command has one word only, and the other words are rejected. -/
theorem fourCommandWordsAreLegal : Obligations.FourCommandWordsAreLegal := by
  intro d
  have command {i : Instr} (hw : i.isWrite = true) (hoff : i.offset = 0x04) :
      decode ⟨2, true, 0x04, d⟩ = .ok i ↔ d = i.data := by
    simp [decode_eq_ok_iff_of_write hw, encode, hw, hoff, eq_comm]
  exact ⟨command rfl rfl, command rfl rfl, command rfl rfl, command rfl rfl, decode_cmd d ▸ decodeCmd_eq_illegalCmd_iff⟩

/-! The names of rejection (R105, R108). -/

theorem Bow.aligned_iff (b : Bow) : b.aligned = true ↔ b.off.toNat % 4 = 0 := by
  rw [Bow.aligned, beq_iff_eq, ← BitVec.toNat_inj, BitVec.extractLsb'_toNat]
  simp

/-- The shape of the access comes before everything else. -/
theorem decode_of_bad_shape {b : Bow} (h : b.sz ≠ 2 ∨ b.off.toNat % 4 ≠ 0) : decode b = .error .badAccess := by
  rw [decode, if_pos]
  rwa [← Bool.not_eq_true, Bow.aligned_iff]

theorem decode_of_word_access {b : Bow} (hsz : b.sz = 2) (ha : b.off.toNat % 4 = 0) :
    decode b = if b.w then decodeWrite b.off b.data else decodeRead b.off := by
  rw [decode, if_neg]
  simp [hsz, (Bow.aligned_iff b).mpr ha]

/-- Only CMD looks at the data of a write; a write to any register but CMD and DATA1 to DATA4 is BAD_OFFSET. -/
theorem decodeWrite_error {off : BitVec 7} {d : Word} {e : Reject} :
    decodeWrite off d = .error e ↔
      (off = 0x04 ∧ decodeCmd d = .error e) ∨ (e = .badOffset ∧ off.toNat ∉ [0x04, 0x10, 0x14, 0x18, 0x1C]) := by
  have hcmd : off = 4#7 ↔ off.toNat = 4 := BitVec.toNat_inj.symm
  unfold decodeWrite
  split
  case h_6 h4 h10 h14 h18 h1C =>
    have unmapped : off.toNat ∉ [0x04, 0x10, 0x14, 0x18, 0x1C] := by simpa using ⟨h4, h10, h14, h18, h1C⟩
    have not_cmd : off ≠ 4#7 := mt hcmd.mp h4
    simpa [unmapped, not_cmd] using eq_comm
  all_goals
    rename_i hoff
    simp [hcmd, hoff]

/-- Every aligned offset below 0x54 is a register. -/
theorem decodeRead_error {off : BitVec 7} {e : Reject} (ha : off.toNat % 4 = 0) :
    decodeRead off = .error e ↔ e = .badOffset ∧ 0x54 ≤ off.toNat := by
  unfold decodeRead
  split
  case h_22 =>
    have reserved : 0x54 ≤ off.toNat := by grind
    simpa [reserved] using eq_comm
  all_goals
    rename_i hoff
    simp [hoff]

/-- Settles O10: by the shape of the access, then by its direction. -/
theorem illegalWordsAreRejectedByName : Obligations.IllegalWordsAreRejectedByName := by
  intro b
  by_cases hshape : b.sz ≠ 2 ∨ b.off.toNat % 4 ≠ 0
  · rw [decode_of_bad_shape hshape]
    refine ⟨iff_of_true rfl hshape, iff_of_false (by decide) ?_, iff_of_false (by decide) ?_⟩
    · rintro ⟨hsz, ha, -⟩
      exact hshape.elim (absurd hsz) (absurd ha)
    · rintro ⟨hsz, -, hoff, -⟩
      exact hshape.elim (absurd hsz) (absurd (by rw [hoff]; rfl))
  · obtain ⟨hsz, ha⟩ : b.sz = 2 ∧ b.off.toNat % 4 = 0 := by simpa using hshape
    rw [decode_of_word_access hsz ha]
    cases hw : b.w with
    | true =>
      simp only [if_true, decodeWrite_error]
      have not_access : decodeCmd b.data ≠ .error .badAccess := fun h => by cases decodeCmd_error h
      have not_offset : decodeCmd b.data ≠ .error .badOffset := fun h => by cases decodeCmd_error h
      simp [not_access, not_offset, hsz, ha, decodeCmd_eq_illegalCmd_iff]
    | false => simp [decodeRead_error ha, hsz, ha]

end Sys2Proof
end

section
/-! The operation map of 30_encoding.md R107 against the encoder and the decoder: each of its rows is that of an operation, and
the bits a row fixes are those the decoder looks at. -/

namespace Sys2Proof

/-- A command: its row fixes DATA too. -/
def Instr.isCommand (i : Instr) : Bool :=
  i.isWrite && i.takesNoOperand

/-- The operation with operand 0, as a row of the operation map writes it. -/
def Instr.form : Instr → Instr
  | .upd1 _ => .upd1 0
  | .upd2 _ => .upd2 0
  | .upd3 _ => .upd3 0
  | .upd4 _ => .upd4 0
  | i => i

/-- The row of an operation: its encoding, and the bits it fixes. -/
def Instr.row (i : Instr) : OpRow :=
  ⟨i.mnemonic, encodeWord i.form, if i.isCommand then 0x3FFFFFFFFFF else 0x3FF00000000⟩

/-- The operations with operand 0, in the order of the operation map. -/
def Instr.forms : List Instr :=
  [.nop, .initMd5, .initSha1, .final, .upd1 0, .upd2 0, .upd3 0, .upd4 0, .rdId, .rdCmd, .rdStatus, .rdCause, .rdData1,
    .rdData2, .rdData3, .rdData4, .rdState0, .rdState1, .rdState2, .rdState3, .rdState4, .rdErrData, .rdLenLo, .rdLenHi,
    .rdDigest0, .rdDigest1, .rdDigest2, .rdDigest3, .rdDigest4]

/-- The transcribed table is the encoder's. -/
theorem opcodeRows_eq : opcodeRows = Instr.forms.map Instr.row := by
  decide

theorem opcodeRows_mnemonic_nodup : (opcodeRows.map OpRow.mnemonic).Nodup := by
  decide

theorem Instr.row_mem (i : Instr) : i.row ∈ opcodeRows := by
  have hform : i.form ∈ Instr.forms := by cases i <;> simp [Instr.form, Instr.forms]
  have hrow : i.form.row = i.row := by cases i <;> rfl
  rw [opcodeRows_eq, ← hrow]
  exact List.mem_map_of_mem hform

/-- A mnemonic names one row. -/
theorem row_eq_of_mnemonic_eq {a b : OpRow} (ha : a ∈ opcodeRows) (hb : b ∈ opcodeRows) (h : a.mnemonic = b.mnemonic) :
    a = b :=
  List.inj_on_of_nodup_map opcodeRows_mnemonic_nodup ha hb h

theorem Instr.form_of_command {i : Instr} (hc : i.isCommand = true) : i.form = i := by
  cases i
  case upd1 | upd2 | upd3 | upd4 => cases hc
  all_goals rfl

theorem encode_form {i : Instr} (hc : i.isCommand = false) : encode i.form = (encode i).withData 0 := by
  cases i
  case nop | initMd5 | initSha1 | final => cases hc
  all_goals rfl

/-- A command's row fixes every bit. -/
theorem meets_row_of_command {v : BitVec 42} {i : Instr} (hc : i.isCommand = true) :
    v &&& i.row.mask = i.row.matchBits ↔ v = encodeWord i := by
  have every_bit : i.row.mask = BitVec.allOnes 42 := by rw [Instr.row, hc]; rfl
  rw [every_bit, BitVec.and_allOnes, Instr.row, i.form_of_command hc]

/-- Every other row fixes SZ, W and OFF. -/
theorem meets_row_of_not_command {v : BitVec 42} {i : Instr} (hc : i.isCommand = false) :
    v &&& i.row.mask = i.row.matchBits ↔ (Bow.ofWord v).withData 0 = (encode i).withData 0 := by
  have access_bits : i.row.mask = 0x3FF00000000 := by rw [Instr.row, hc]; rfl
  have clear : v &&& 0x3FF00000000 = ((Bow.ofWord v).withData 0).toWord := by
    rw [Bow.toWord_clearData, Bow.toWord_ofWord]
  rw [access_bits, clear, Instr.row, encodeWord, encode_form hc]
  exact ⟨Bow.toWord_injective, congrArg Bow.toWord⟩

theorem decoded_word_meets_row {v : BitVec 42} {i : Instr} (h : decodeWord v = .ok i) :
    v &&& i.row.mask = i.row.matchBits := by
  obtain ⟨hsz, hw, hoff, -⟩ := decode_ok h
  cases hc : i.isCommand with
  | true =>
    have hwrite : i.isWrite = true := by simp_all [Instr.isCommand]
    rw [meets_row_of_command hc, encodeWord, encode_of_decode_write h hwrite, Bow.toWord_ofWord]
  | false => rw [meets_row_of_not_command hc, Bow.withData, hsz, hw, hoff, Bow.withData, encode]

/-- With any DATA, the access of an operation that is no command decodes to that operation. -/
theorem decode_encode_withData {i : Instr} (hc : i.isCommand = false) (d : Word) :
    ∃ j, decode ((encode i).withData d) = .ok j ∧ j.mnemonic = i.mnemonic := by
  cases i
  case nop | initMd5 | initSha1 | final => cases hc
  case upd1 => exact ⟨.upd1 d, decode_encode (.upd1 d), rfl⟩
  case upd2 => exact ⟨.upd2 d, decode_encode (.upd2 d), rfl⟩
  case upd3 => exact ⟨.upd3 d, decode_encode (.upd3 d), rfl⟩
  case upd4 => exact ⟨.upd4 d, decode_encode (.upd4 d), rfl⟩
  all_goals exact ⟨_, (decode_withData_of_read rfl d).trans (decode_encode _), rfl⟩

theorem word_that_meets_row_decodes {v : BitVec 42} {i : Instr} (h : v &&& i.row.mask = i.row.matchBits) :
    ∃ j, decodeWord v = .ok j ∧ j.mnemonic = i.mnemonic := by
  cases hc : i.isCommand with
  | true =>
    rw [meets_row_of_command hc] at h
    exact ⟨i, h ▸ everyOperationDecodesFromItsWord i, rfl⟩
  | false =>
    rw [meets_row_of_not_command hc] at h
    have own_data : Bow.ofWord v = (encode i).withData (Bow.ofWord v).data :=
      congrArg (Bow.withData · (Bow.ofWord v).data) h
    rw [decodeWord, own_data]
    exact decode_encode_withData hc _

/-- A word meets a row exactly if it decodes to the row's operation. -/
theorem meets_row_iff {v : BitVec 42} {row : OpRow} (hrow : row ∈ opcodeRows) :
    v &&& row.mask = row.matchBits ↔ ∃ i, decodeWord v = .ok i ∧ i.mnemonic = row.mnemonic := by
  rw [opcodeRows_eq] at hrow
  obtain ⟨i, -, rfl⟩ := List.mem_map.mp hrow
  refine ⟨word_that_meets_row_decodes, ?_⟩
  rintro ⟨j, hj, hname⟩
  rw [← row_eq_of_mnemonic_eq j.row_mem i.row_mem hname]
  exact decoded_word_meets_row hj

/-- A row that a word meets is the row of the operation it decodes to. -/
theorem eq_row_of_meets {v : BitVec 42} {row : OpRow} (hrow : row ∈ opcodeRows) (h : v &&& row.mask = row.matchBits) :
    ∃ i, decodeWord v = .ok i ∧ row = i.row := by
  obtain ⟨i, hi, hname⟩ := (meets_row_iff hrow).mp h
  exact ⟨i, hi, row_eq_of_mnemonic_eq hrow i.row_mem hname.symm⟩

theorem met_rows_length_le_one (v : BitVec 42) :
    (opcodeRows.filter fun row => v &&& row.mask == row.matchBits).length ≤ 1 := by
  have distinct : (opcodeRows.filter fun row => v &&& row.mask == row.matchBits).Nodup :=
    (List.Nodup.of_map _ opcodeRows_mnemonic_nodup).filter _
  have only : (opcodeRows.filter fun row => v &&& row.mask == row.matchBits) ⊆
      (decodeWord v).toOption.toList.map Instr.row := by
    intro row hmem
    obtain ⟨hrow, hmeets⟩ := List.mem_filter.mp hmem
    obtain ⟨i, hi, rfl⟩ := eq_row_of_meets hrow (by simpa using hmeets)
    simp [hi, Except.toOption]
  calc (opcodeRows.filter fun row => v &&& row.mask == row.matchBits).length
      ≤ ((decodeWord v).toOption.toList.map Instr.row).length := (distinct.subperm only).length_le
    _ ≤ 1 := by
      rw [List.length_map]
      exact Option.length_toList_le

/-- Settles O8: decoding and the rows fix the same bits, and a mnemonic names one row. -/
theorem decodingFollowsTheOperationMap : Obligations.DecodingFollowsTheOperationMap :=
  ⟨fun _ _ => meets_row_iff, met_rows_length_le_one⟩

end Sys2Proof
end

section
/-! The pseudo-instructions UPDATE and RDDIGEST (30_encoding.md R114, R115): the bytes they move. -/

namespace Sys2Proof.Machine

/-! UPDATE. -/

/-- `LE32` puts its bytes in the lanes, in order (00_scope.md R13). -/
theorem lanes_le32 (b0 b1 b2 b3 : Byte) :
    lane (le32 b0 b1 b2 b3) 0 = b0 ∧ lane (le32 b0 b1 b2 b3) 1 = b1 ∧ lane (le32 b0 b1 b2 b3) 2 = b2 ∧
      lane (le32 b0 b1 b2 b3) 3 = b3 := by
  simp only [lane, le32]
  simp (disch := decide) only [BitVec.extractLsb'_append_eq_of_le, BitVec.extractLsb'_append_eq_of_add_le]
  refine ⟨?_, ?_, ?_, ?_⟩ <;> exact BitVec.extractLsb'_eq_self

/-- The data write at the head of an expansion appends the bytes of its word. -/
theorem streamBytes_cons (i : Instr) (is : List Instr) : streamBytes (i :: is) = dataBytes (encode i) ++ streamBytes is := rfl

theorem isDataWrite_of_mem_updateInstrs (s : List Byte) : ∀ i ∈ updateInstrs s, isDataWrite i = true := by
  induction s using updateInstrs.induct with
  | case1 b0 b1 b2 b3 rest ih => exact List.forall_mem_cons.mpr ⟨rfl, ih⟩
  | _ => simp [updateInstrs, isDataWrite]

theorem streamBytes_updateInstrs (s : List Byte) : streamBytes (updateInstrs s) = s := by
  induction s using updateInstrs.induct with
  | case1 b0 b1 b2 b3 rest ih => simp [updateInstrs, streamBytes_cons, dataBytes_upd4, leWord, lanes_le32, ih]
  | case2 b0 b1 b2 => simp [updateInstrs, streamBytes, dataBytes_upd3, leWord, lanes_le32]
  | case3 b0 b1 => simp [updateInstrs, streamBytes, dataBytes_upd2, leWord, lanes_le32]
  | case4 b0 => simp [updateInstrs, streamBytes, dataBytes_upd1, leWord, lanes_le32]
  | case5 => rfl

theorem length_updateInstrs (s : List Byte) : (updateInstrs s).length = (s.length + 3) / 4 := by
  induction s using updateInstrs.induct with
  | case1 b0 b1 b2 b3 rest ih =>
    simp only [updateInstrs, List.length_cons, ih]
    omega
  | _ => simp [updateInstrs]

theorem upd4_of_mem_take_updateInstrs (s : List Byte) : ∀ i ∈ (updateInstrs s).take (s.length / 4), ∃ d, i = .upd4 d := by
  induction s using updateInstrs.induct with
  | case1 b0 b1 b2 b3 rest ih =>
    have quarter : (b0 :: b1 :: b2 :: b3 :: rest).length / 4 = rest.length / 4 + 1 := by
      simp only [List.length_cons]
      omega
    rw [quarter, updateInstrs, List.take_succ_cons]
    exact List.forall_mem_cons.mpr ⟨⟨_, rfl⟩, ih⟩
  | _ => simp [updateInstrs]

/-- Settles O49: by the recursion of the expansion, four bytes at a time. -/
theorem updateLineAppendsItsString : Obligations.UpdateLineAppendsItsString := fun s =>
  ⟨isDataWrite_of_mem_updateInstrs s, streamBytes_updateInstrs s, length_updateInstrs s, upd4_of_mem_take_updateInstrs s⟩

/-! RDDIGEST. -/

theorem lane_digestWord_sha1 (h : Chain) (k : Nat) {j : Nat} (hj : j < 4) :
    lane (digestWord .sha1 h k) j = lane (h.word k) (3 - j) :=
  bswap32_lane _ hj

/-- Settles O25: RDDIGEST reads DIGESTk in order, and the lanes of each are four bytes of the digest. -/
theorem rdDigestYieldsTheDigest : Obligations.RdDigestYieldsTheDigest := by
  intro s
  have read0 : exec .rdDigest0 s = .next (s.okRead (digestWord s.alg s.h 0)) := rfl
  have read1 : exec .rdDigest1 s = .next (s.okRead (digestWord s.alg s.h 1)) := rfl
  have read2 : exec .rdDigest2 s = .next (s.okRead (digestWord s.alg s.h 2)) := rfl
  have read3 : exec .rdDigest3 s = .next (s.okRead (digestWord s.alg s.h 3)) := rfl
  have read4 : exec .rdDigest4 s = .next (s.okRead (digestWord s.alg s.h 4)) := rfl
  cases ha : s.alg with
  | md5 => simp [rdDigestInstrs, digestBytes, read0, read1, read2, read3, ha, digestWord, List.range_succ]
  | sha1 => simp [rdDigestInstrs, digestBytes, read0, read1, read2, read3, read4, ha, lane_digestWord_sha1, List.range_succ]

end Sys2Proof.Machine
end

section
/-! WAITIDLE (30_encoding.md R116): what a step does while a poll of STATUS is alone at the port, and that the polling loop ends,
since each poll answered BUSY uses up one of the finitely many free accesses before the next retire (70_reset_and_hazards.md
R350, log 3). -/

namespace Sys2Proof.Machine

/-- The request that the polling loop issues. -/
def statusPoll : Request :=
  ⟨0, encode .rdStatus⟩

/-- `s` after a poll, alone at its port, has been answered. -/
def answerPoll (s : State) : State :=
  (takeRequest [] s).okRead (statusWord s)

theorem answerPoll_sameStream (s : State) : SameStream s (answerPoll s) := ⟨rfl, rfl, rfl, rfl, rfl, rfl, rfl⟩

theorem SameStream.arrive (r : Request) (s : State) : SameStream s (s.arrive r) := ⟨rfl, rfl, rfl, rfl, rfl, rfl, rfl⟩

/-- Polling leaves STATUS alone (20_memory.md R82). -/
theorem answerPoll_status (s : State) : statusWord (answerPoll s) = statusWord s := rfl

theorem answerPoll_says_idle (s : State) : pollSaysIdle (answerPoll s) = !s.busy := by
  rw [← statusWord_bit3]
  rfl

/-! A step with a poll alone at the port. -/

theorem nextAction_of_poll {s : State} (hr : s.resetIn = false) (hp : s.port = [statusPoll]) :
    nextAction s = if s.busy && coreFirst s then .retire else .accept statusPoll [] := by
  have found : firstFree [] s.port = some (statusPoll, []) := by rw [hp]; rfl
  cases hb : s.busy with
  | false => exact nextAction_of_not_busy hr (busy_eq_false.mp hb) hp
  | true =>
    unfold nextAction
    rw [if_neg (by simp [hr]), if_pos hb, found, Bool.true_and]

theorem step_of_poll {s : State} (hr : s.resetIn = false) (hp : s.port = [statusPoll]) :
    step s = .next (if s.busy && coreFirst s then retire s else answerPoll s) := by
  have haction := nextAction_of_poll hr hp
  cases hc : s.busy && coreFirst s <;> rw [hc] at haction
  · exact step_of_accept haction rfl
  · unfold step
    rw [haction]
    rfl

/-! The polling loop. -/

/-- An empty port: a poll is issued. -/
theorem pollLoop_issue {s : State} (hp : s.port = []) (n : Nat) (polling : Bool) :
    pollLoop n polling s = pollLoop n true (s.arrive statusPoll) := by
  cases n with
  | zero => rfl
  | succ n => simp [pollLoop, hp, statusPoll]

/-- Something waits at the port: one step. -/
theorem pollLoop_succ {s t : State} (hp : s.port ≠ []) (hstep : step s = .next t) (n : Nat) (polling : Bool) :
    pollLoop (n + 1) polling s =
      if polling && t.port.isEmpty then if pollSaysIdle t then some t else pollLoop n false t
      else pollLoop n polling t := by
  have waiting : s.port.isEmpty = false := by simpa using hp
  simp only [pollLoop, waiting, Bool.false_eq_true, if_false, Bool.or_false, hstep]

/-- The loop with its poll alone at the port: a retire, an answer that says BUSY, or the last answer. -/
theorem pollLoop_of_poll {s : State} (hr : s.resetIn = false) (hp : s.port = [statusPoll]) (n : Nat) :
    pollLoop (n + 1) true s =
      if s.busy && coreFirst s then pollLoop n true (retire s)
      else if s.busy then pollLoop n false (answerPoll s)
      else some (answerPoll s) := by
  rw [pollLoop_succ (by simp [hp]) (step_of_poll hr hp)]
  cases hc : s.busy && coreFirst s with
  | true => simp [hp]
  | false =>
    have answered : (answerPoll s).port = [] := rfl
    cases hb : s.busy <;> simp [answered, answerPoll_says_idle, hb]

/-! The loop ends. -/

theorem SameStream.retire {s t : State} (hst : SameStream s t) : SameStream (retire s) (retire t) := by
  cases hq : s.pq with
  | nil => rwa [retire_of_nil hq, retire_of_nil (hst.pq.trans hq)]
  | cons blk rest =>
    rw [retire_of_cons hq, retire_of_cons (hst.pq.trans hq), hst.alg, hst.h]
    exact ⟨rfl, hst.buf, hst.fill, hst.len, rfl, hst.life, rfl⟩

theorem SameStream.drain {s t : State} (hst : SameStream s t) : SameStream (drain s) (drain t) := by
  unfold Machine.drain
  rw [hst.pq]
  generalize s.pq.length = n
  induction n generalizing s t with
  | zero => exact hst
  | succ n ih => exact ih hst.retire

/-- `t` is `s` with every block retired, as far as WAITIDLE promises. -/
structure Drained (s t : State) : Prop where
  pq : t.pq = []
  h : t.h = (drain s).h
  life : t.life = s.life
  len : t.len = s.len
  err : t.err = s.err

namespace Drained

theorem of_queue_empty {s t : State} (hq : s.pq = []) (hst : SameStream s t) (herr : t.err = s.err) : Drained s t :=
  ⟨hst.pq.trans hq, by rw [drain_of_nil hq, hst.h], hst.life, hst.len, herr⟩

theorem of_sameStream {s u t : State} (hut : Drained u t) (hsu : SameStream s u) (herr : u.err = s.err) : Drained s t :=
  ⟨hut.pq, hut.h.trans hsu.drain.h, hut.life.trans hsu.life, hut.len.trans hsu.len, hut.err.trans herr⟩

theorem of_retire {s t : State} (hut : Drained (retire s) t) (hq : s.pq ≠ []) : Drained s t := by
  obtain ⟨blk, rest, hq⟩ := List.exists_cons_of_ne_nil hq
  exact ⟨hut.pq, by rw [drain_of_cons hq, hut.h], hut.life.trans (retire_life s), hut.len.trans (retire_len s),
    hut.err.trans (retire_err s)⟩

end Drained

/-- How many free accesses may still come before the next retire (log 3). -/
def freeBeforeRetire (s : State) : Nat :=
  Config.retireDelay s.alg s.draws - s.raced

/-- A poll accepted before the retire uses one up. -/
theorem freeBeforeRetire_again {s : State} (hb : s.busy = true) (hc : coreFirst s = false) :
    freeBeforeRetire ((answerPoll s).arrive statusPoll) < freeBeforeRetire s := by
  have hlt : s.raced < Config.retireDelay s.alg s.draws := by simpa [coreFirst] using hc
  simp only [freeBeforeRetire, answerPoll, arrive_alg, arrive_draws, arrive_raced, okRead_alg, okRead_draws, okRead_raced,
    takeRequest_alg, takeRequest_draws, takeRequest_raced, hb, if_true]
  omega

theorem retire_pq_length_lt {s : State} (hq : s.pq ≠ []) : (retire s).pq.length < s.pq.length := by
  obtain ⟨blk, rest, hq⟩ := List.exists_cons_of_ne_nil hq
  simp [retire_of_cons hq, hq]

/-- Either a block retires, or one of the free accesses before the next retire is used up. -/
theorem pollLoop_ends (s : State) (hr : s.resetIn = false) (hp : s.port = [statusPoll]) :
    ∃ n t, pollLoop n true s = some t ∧ Drained s t := by
  have hloop := pollLoop_of_poll hr hp
  by_cases hq : s.pq = []
  · simp only [busy_eq_false.mpr hq, Bool.false_and, Bool.false_eq_true, if_false] at hloop
    exact ⟨1, _, hloop 0, .of_queue_empty hq (answerPoll_sameStream s) rfl⟩
  · simp only [busy_eq_true.mpr hq, Bool.true_and, if_true] at hloop
    cases hc : coreFirst s <;> simp only [hc, Bool.false_eq_true, if_false, if_true] at hloop
    · have again (n : Nat) : pollLoop (n + 1) true s = pollLoop n true ((answerPoll s).arrive statusPoll) :=
        (hloop n).trans (pollLoop_issue rfl n false)
      obtain ⟨n, t, hn, ht⟩ := pollLoop_ends ((answerPoll s).arrive statusPoll) hr rfl
      exact ⟨n + 1, t, (again n).trans hn, ht.of_sameStream ((answerPoll_sameStream s).trans (.arrive ..)) rfl⟩
    · obtain ⟨n, t, hn, ht⟩ := pollLoop_ends (retire s) ((retire_resetIn s).trans hr) ((retire_port s).trans hp)
      exact ⟨n + 1, t, (hloop n).trans hn, ht.of_retire hq⟩
termination_by (s.pq.length, freeBeforeRetire s)
decreasing_by
  · exact .right _ (freeBeforeRetire_again (busy_eq_true.mpr hq) hc)
  · exact .left _ _ (retire_pq_length_lt hq)

/-! What the loop ends on. -/

/-- The loop ends on the answer to a poll of its own, given on an empty queue. -/
theorem pollLoop_eq_some {n : Nat} {polling : Bool} {s t : State} (hpoll : polling = true → s.port = [statusPoll])
    (h : pollLoop n polling s = some t) : ∃ u, u.pq = [] ∧ t = answerPoll u := by
  induction n generalizing polling s with
  | zero => cases h
  | succ n ih =>
    have polled {s : State} (hp : s.port = [statusPoll]) (h : pollLoop (n + 1) true s = some t) :
        ∃ u, u.pq = [] ∧ t = answerPoll u := by
      cases hr : s.resetIn with
      | true =>
        rw [pollLoop_succ (by simp [hp]) (step_of_resetIn hr)] at h
        exact ih (polling := false) nofun h
      | false =>
        rw [pollLoop_of_poll hr hp] at h
        split at h
        · exact ih (fun _ => (retire_port s).trans hp) h
        · split at h
          · exact ih (polling := false) nofun h
          · rename_i hb
            exact ⟨s, busy_eq_false.mp (by simpa using hb), (Option.some.inj h).symm⟩
    cases polling with
    | true => exact polled (hpoll rfl) h
    | false =>
      by_cases hp : s.port = []
      · rw [pollLoop_issue hp] at h
        exact polled (by simp [hp]) h
      · obtain ⟨u, hu⟩ := step_answers s
        rw [pollLoop_succ hp hu] at h
        exact ih (polling := false) nofun h

/-- Settles O40: the loop ends by `pollLoop_ends`, on an answer that shows STATUS[3] = 0. -/
theorem waitIdleEnds : Obligations.WaitIdleEnds := by
  refine ⟨fun s hr hp => ?_, fun s t n h => ?_⟩
  · obtain ⟨n, t, hn, ht⟩ := pollLoop_ends (s.arrive statusPoll) hr (by simp [hp])
    obtain ⟨hpq, hh, hlife, hlen, herr⟩ := ht.of_sameStream (.arrive statusPoll s) rfl
    exact ⟨n, t, (pollLoop_issue hp n false).trans hn, hpq, hh, hlife, hlen, herr⟩
  · obtain ⟨u, hq, rfl⟩ := pollLoop_eq_some (polling := false) nofun h
    refine ⟨hq, rfl, rfl, ?_⟩
    rw [statusWord_bit3]
    exact busy_eq_false.mpr hq

end Sys2Proof.Machine
end

section
/-! The MD5 compression of 40_md5_transform.md: what the auxiliary functions select (R132), and the step of each round with its
message word and rotation amount (R131 to R139). -/

namespace Sys2Proof.Machine

/-! The auxiliary functions. -/

/-- `F` selects by `x`. -/
theorem getLsbD_md5F (x y z : Word) (i : Nat) :
    (md5F x y z).getLsbD i = if x.getLsbD i then y.getLsbD i else z.getLsbD i := by
  simp only [md5F, BitVec.getLsbD_xor, BitVec.getLsbD_and]
  cases x.getLsbD i with
  | false => simp
  | true => cases z.getLsbD i <;> simp

/-- `G` is `F` with its arguments turned. -/
theorem md5G_eq_md5F (x y z : Word) : md5G x y z = md5F z x y := rfl

/-- `G` selects by `z`. -/
theorem getLsbD_md5G (x y z : Word) (i : Nat) :
    (md5G x y z).getLsbD i = if z.getLsbD i then x.getLsbD i else y.getLsbD i := by
  rw [md5G_eq_md5F, getLsbD_md5F]

theorem md5F_ones (y z : Word) : md5F 0xFFFFFFFF y z = y := by
  refine BitVec.eq_of_getLsbD_eq fun i hi => ?_
  have bit : (0xFFFFFFFF : Word).getLsbD i = true := (BitVec.getLsbD_allOnes (v := 32)).trans (decide_eq_true hi)
  rw [getLsbD_md5F, bit, if_pos rfl]

theorem md5F_zero (y z : Word) : md5F 0 y z = z := by
  simp [md5F]

theorem md5H_self (x z : Word) : md5H x x z = z := by
  simp [md5H]

theorem md5I_zero (x y : Word) : md5I x y 0 = ~~~y := by
  have ones : ~~~(0 : Word) = BitVec.allOnes 32 := rfl
  rw [md5I, ones, BitVec.or_allOnes, BitVec.xor_allOnes]

/-- Settles O42: `F` and `G` select bit by bit, and so between whole words where the selecting word is all ones or 0. -/
theorem md5AuxiliaryFunctionsSelect : Obligations.Md5AuxiliaryFunctionsSelect := fun x y z =>
  ⟨rfl, rfl, rfl, rfl, getLsbD_md5F x y z, getLsbD_md5G x y z, md5F_ones y z, md5F_zero y z,
    (md5G_eq_md5F x y _).trans (md5F_ones x y), (md5G_eq_md5F x y 0).trans (md5F_zero x y), md5H_self x z, md5I_zero 0 0,
    md5I_zero x y⟩

/-! The steps. -/

theorem md5Run_succ (h : Chain) (blk : Nat → Byte) (n : Nat) :
    md5Run h blk (n + 1) = md5Step (md5Words blk) (md5Run h blk n) n := by
  simp [md5Run, List.range_succ]

/-- `M[j]` is the little-endian word of the bytes from `4 * j` (R131). -/
theorem md5Words_getD (blk : Nat → Byte) {j : Nat} (hj : j < 16) :
    (md5Words blk).getD j 0 = le32 (blk (4 * j)) (blk (4 * j + 1)) (blk (4 * j + 2)) (blk (4 * j + 3)) := by
  simp [md5Words, hj]

/-- What is given per round is the entry of a table with a row for each of the four rounds of 16 steps. -/
theorem ite_round_eq_getD {α : Type} {i : Nat} (hi : i < 64) (w x y z d : α) :
    (if i < 16 then w else if i < 32 then x else if i < 48 then y else z) = [w, x, y, z].getD (i / 16) d := by
  split_ifs
  · rw [show i / 16 = 0 by omega]; rfl
  · rw [show i / 16 = 1 by omega]; rfl
  · rw [show i / 16 = 2 by omega]; rfl
  · rw [show i / 16 = 3 by omega]; rfl

/-- The message index, round by round (R134). -/
theorem md5Index_eq {i : Nat} (hi : i < 64) :
    md5Index i = if i < 16 then i % 16 else if i < 32 then (5 * i + 1) % 16 else if i < 48 then (3 * i + 5) % 16
      else (7 * i) % 16 := by
  rw [ite_round_eq_getD hi _ _ _ _ 0, md5Index]
  have round : i / 16 < 4 := by omega
  generalize i / 16 = r at round
  interval_cases r <;> rfl

theorem md5Index_lt (i : Nat) : md5Index i < 16 := by
  unfold md5Index
  split <;> exact Nat.mod_lt _ (by decide)

/-- The rotation amount, round by round (R135). -/
theorem md5Shift_eq {i : Nat} (hi : i < 64) :
    md5Shift i = (if i < 16 then [7, 12, 17, 22] else if i < 32 then [5, 9, 14, 20] else if i < 48 then [4, 11, 16, 23]
      else [6, 10, 15, 21]).getD (i % 4) 0 := by
  rw [ite_round_eq_getD hi _ _ _ _ [], md5Shift, md5ShiftTable]

/-- Settles O43: a run of one step more ends with `md5Step`, whose message word, index and amount are those of its round. -/
theorem md5StepsAndFeedForward : Obligations.Md5StepsAndFeedForward := by
  intro h blk
  refine ⟨rfl, fun i hi => ?_, rfl⟩
  have word := md5Words_getD blk (md5Index_lt i)
  rw [md5Index_eq hi] at word
  rw [md5Run_succ, md5Step, md5Shift_eq hi, md5Index_eq hi, word]
  rfl

end Sys2Proof.Machine
end

section
/-! The SHA-1 compression of 41_sha1_transform.md: the message schedule is the block's 16 words and then its recurrence (R171,
R172), what the round functions select (R173), and the steps (R174 to R177). -/

namespace Sys2Proof.Machine

/-! The message schedule. -/

/-- `W[t]` of the recurrence, from the words before it in `w` (R172). -/
def sha1Next (w : List Word) (t : Nat) : Word :=
  rotl (w.getD (t - 3) 0 ^^^ w.getD (t - 8) 0 ^^^ w.getD (t - 14) 0 ^^^ w.getD (t - 16) 0) 1

theorem sha1Extend_eq (w : List Word) : sha1Extend w = w ++ [sha1Next w w.length] := rfl

@[simp] theorem sha1Extend_length (w : List Word) : (sha1Extend w).length = w.length + 1 := by
  simp [sha1Extend_eq]

theorem sha1Extend_getD_of_lt {w : List Word} {t : Nat} (ht : t < w.length) :
    (sha1Extend w).getD t 0 = w.getD t 0 :=
  List.getD_append _ _ _ _ ht

theorem sha1Extend_getD_length (w : List Word) : (sha1Extend w).getD w.length 0 = sha1Next w w.length := by
  simp [sha1Extend_eq]

/-- The recurrence looks back only, so it does not see the word appended last. -/
theorem sha1Next_sha1Extend {w : List Word} {t : Nat} (hpos : 0 < t) (ht : t ≤ w.length) :
    sha1Next (sha1Extend w) t = sha1Next w t := by
  have back (k : Nat) (hk : 0 < k) : (sha1Extend w).getD (t - k) 0 = w.getD (t - k) 0 :=
    sha1Extend_getD_of_lt (by omega)
  simp only [sha1Next, back 3 (by decide), back 8 (by decide), back 14 (by decide), back 16 (by decide)]

/-- `w` is a start of the block's schedule: the words of the block (R171), and behind them those of the recurrence (R172). -/
structure StartsSha1Schedule (blk : Nat → Byte) (w : List Word) : Prop where
  long : 16 ≤ w.length
  first : ∀ j, j < 16 → w.getD j 0 = be32 (blk (4 * j)) (blk (4 * j + 1)) (blk (4 * j + 2)) (blk (4 * j + 3))
  later : ∀ t, 16 ≤ t → t < w.length → w.getD t 0 = sha1Next w t

theorem sha1Words_length (blk : Nat → Byte) : (sha1Words blk).length = 16 := by
  simp [sha1Words]

/-- The words of the block alone are a start: nothing of the recurrence is among them. -/
theorem sha1Words_startsSha1Schedule (blk : Nat → Byte) : StartsSha1Schedule blk (sha1Words blk) where
  long := (sha1Words_length blk).ge
  first j hj := by simp [sha1Words, hj]
  later t h16 ht := by
    rw [sha1Words_length] at ht
    omega

theorem StartsSha1Schedule.extend {blk : Nat → Byte} {w : List Word} (hw : StartsSha1Schedule blk w) :
    StartsSha1Schedule blk (sha1Extend w) where
  long := by
    rw [sha1Extend_length]
    exact Nat.le_succ_of_le hw.long
  first j hj := (sha1Extend_getD_of_lt (hj.trans_le hw.long)).trans (hw.first j hj)
  later t h16 ht := by
    rw [sha1Extend_length, Nat.lt_succ_iff] at ht
    rw [sha1Next_sha1Extend (by omega) ht]
    rcases ht.lt_or_eq with hold | rfl
    · exact (sha1Extend_getD_of_lt hold).trans (hw.later t h16 hold)
    · exact sha1Extend_getD_length w

theorem foldl_sha1Extend_length (l : List Nat) (w : List Word) :
    (l.foldl (fun w _ => sha1Extend w) w).length = w.length + l.length := by
  induction l generalizing w with
  | nil => rfl
  | cons n l ih => rw [List.foldl_cons, ih, sha1Extend_length, List.length_cons]; omega

theorem StartsSha1Schedule.foldl_extend {blk : Nat → Byte} (l : List Nat) {w : List Word}
    (hw : StartsSha1Schedule blk w) : StartsSha1Schedule blk (l.foldl (fun w _ => sha1Extend w) w) := by
  induction l generalizing w with
  | nil => exact hw
  | cons n l ih => exact ih hw.extend

theorem sha1Schedule_length (blk : Nat → Byte) : (sha1Schedule blk).length = 80 := by
  rw [sha1Schedule, foldl_sha1Extend_length, sha1Words_length, List.length_range]

theorem sha1Schedule_startsSha1Schedule (blk : Nat → Byte) : StartsSha1Schedule blk (sha1Schedule blk) :=
  (sha1Words_startsSha1Schedule blk).foldl_extend _

/-- Settles O44: the words of the block start the schedule, and appending the next word of the recurrence keeps a start one. -/
theorem sha1ScheduleFollowsItsRecurrence : Obligations.Sha1ScheduleFollowsItsRecurrence := by
  intro blk
  obtain ⟨-, first, later⟩ := sha1Schedule_startsSha1Schedule blk
  rw [sha1Schedule_length] at later
  exact ⟨sha1Schedule_length blk, first, later⟩

/-! The round functions. -/

/-- Choice is MD5's `F` (R132, R173). -/
theorem sha1Choice_eq_md5F (b c d : Word) : sha1Choice b c d = md5F b c d := rfl

theorem getLsbD_sha1Choice (b c d : Word) (i : Nat) :
    (sha1Choice b c d).getLsbD i = if b.getLsbD i then c.getLsbD i else d.getLsbD i := by
  rw [sha1Choice_eq_md5F, getLsbD_md5F]

theorem getLsbD_sha1Parity (b c d : Word) (i : Nat) :
    (sha1Parity b c d).getLsbD i = (b.getLsbD i ^^ c.getLsbD i ^^ d.getLsbD i) := by
  simp [sha1Parity]

/-- Two of three bits are set where some pair of them is. -/
theorem pair_set_iff_two_le : ∀ x y z : Bool,
    (x && y || x && z || y && z) = true ↔ 2 ≤ x.toNat + y.toNat + z.toNat := by
  decide

theorem getLsbD_sha1Majority (b c d : Word) (i : Nat) :
    (sha1Majority b c d).getLsbD i = true ↔
      2 ≤ (b.getLsbD i).toNat + (c.getLsbD i).toNat + (d.getLsbD i).toNat := by
  rw [sha1Majority, BitVec.getLsbD_or, BitVec.getLsbD_or, BitVec.getLsbD_and, BitVec.getLsbD_and, BitVec.getLsbD_and]
  exact pair_set_iff_two_le _ _ _

/-! The steps. -/

/-- The round constant, round by round (R174). -/
theorem sha1KS_eq {t : Nat} (ht : t < 80) :
    sha1KS (t / 20) = if t < 20 then 0x5a827999 else if t < 40 then 0x6ed9eba1 else if t < 60 then 0x8f1bbcdc
      else 0xca62c1d6 := by
  split_ifs
  · rw [show t / 20 = 0 by omega]; rfl
  · rw [show t / 20 = 1 by omega]; rfl
  · rw [show t / 20 = 2 by omega]; rfl
  · rw [show t / 20 = 3 by omega]; rfl

theorem sha1Run_succ (h : Chain) (blk : Nat → Byte) (n : Nat) :
    sha1Run h blk (n + 1) = sha1Step (sha1Schedule blk) (sha1Run h blk n) n := by
  simp [sha1Run, List.range_succ]

/-- Settles O45: the round functions bit by bit, and a run of one step more ends with `sha1Step` and the constant of its
round. -/
theorem sha1StepsAndFeedForward : Obligations.Sha1StepsAndFeedForward := by
  refine ⟨fun b c d i => ⟨getLsbD_sha1Choice b c d i, getLsbD_sha1Parity b c d i, getLsbD_sha1Majority b c d i,
    getLsbD_sha1Parity b c d i⟩, fun h blk => ⟨rfl, fun t ht => ?_, rfl⟩⟩
  rw [sha1Run_succ, sha1Step, sha1KS_eq ht]

end Sys2Proof.Machine
end

section
/-! The stream commands NOP, INIT, UPD1 to UPD4 and FINAL (42_stream_commands.md R200 to R209): what the gate lets through, and
what a data write leaves in each register. -/

namespace Sys2Proof.Machine

/-- Settles O14: the meaning of NOP is its OKAY response. -/
theorem nopChangesNothing : Obligations.NopChangesNothing := fun _ => rfl

/-! INIT. -/

theorem exec_initInstr (alg : Alg) (s : State) : exec (initInstr alg) s = .next (startStream alg s).okWrite := by
  cases alg <;> rfl

/-- A fresh stream with nothing queued shows STATE and ALG and no other flag (10_state.md R49). -/
theorem statusWord_startStream (alg : Alg) {s : State} (hq : s.pq = []) :
    statusWord (startStream alg s) = if alg = .sha1 then 0x00000005 else 0x00000001 := by
  have idle : (startStream alg s).busy = false := busy_eq_false.mpr hq
  simp only [statusWord, idle, startStream_fill, startStream_err, startStream_alg, startStream_life]
  cases alg <;> decide

theorem causeWord_of_no_error : causeWord ⟨false, 0, .none⟩ = 0 := by decide

/-- Settles O15: INIT is `startStream` with the algorithm of its command word; STATUS of a fresh stream is the lemma above. -/
theorem initStartsAStream : Obligations.InitStartsAStream := fun s =>
  ⟨⟨_, exec_initInstr .md5 s, rfl, rfl, Memory.read_zero, rfl, rfl, rfl, rfl, causeWord_of_no_error, rfl, rfl,
      rfl, rfl, rfl, fun hq => statusWord_startStream .md5 hq⟩,
    ⟨_, exec_initInstr .sha1 s, rfl, rfl, Memory.read_zero, rfl, rfl, rfl, rfl, causeWord_of_no_error, rfl, rfl,
      rfl, rfl, rfl, fun hq => statusWord_startStream .sha1 hq⟩⟩

/-! The gate. -/

/-- A data write is one gated append of the bytes of its word (R201, R206 to R209). -/
theorem exec_dataWrite {i : Instr} (hi : isDataWrite i = true) (s : State) :
    exec i s = .next (streamGate (encode i) (appendBytes (dataBytes (encode i))) s).okWrite := by
  cases i
  case upd1 | upd2 | upd3 | upd4 => rfl
  all_goals cases hi

@[simp] theorem appendBytes_err (bs : List Byte) (s : State) : (appendBytes bs s).err = s.err := by
  obtain ⟨-, -, -, -, herr, -⟩ := foldl_appendByte_frame bs s
  exact herr

@[simp] theorem appendBytes_port (bs : List Byte) (s : State) : (appendBytes bs s).port = s.port := by
  obtain ⟨-, -, -, -, -, -, -, hport, -⟩ := foldl_appendByte_frame bs s
  exact hport

@[simp] theorem appendBytes_resetIn (bs : List Byte) (s : State) : (appendBytes bs s).resetIn = s.resetIn := by
  obtain ⟨-, -, -, -, -, -, -, -, -, hreset, -⟩ := foldl_appendByte_frame bs s
  exact hreset

/-- The body of a stream command, which runs behind the gate. -/
def streamBody (i : Instr) : State → State :=
  if i = .final then finishStream else appendBytes (dataBytes (encode i))

theorem streamBody_err (i : Instr) (s : State) : (streamBody i s).err = s.err := by
  unfold streamBody
  split
  · exact finishStream_err s
  · exact appendBytes_err _ s

theorem streamBody_life (i : Instr) (s : State) : (streamBody i s).life = if i = .final then .final else .accum := by
  unfold streamBody
  split <;> rfl

/-- Each of the five stream commands runs its body behind the gate and writes `word` at `off`. -/
theorem exec_streamCommand {d : Word} {i : Instr} {off : BitVec 7} {word : Word}
    (h : (i, off, word) ∈ [(Instr.upd1 d, 0x10, d), (.upd2 d, 0x14, d), (.upd3 d, 0x18, d), (.upd4 d, 0x1C, d),
      (.final, 0x04, 0x00000002)]) :
    encode i = ⟨2, true, off, word⟩ ∧ ∀ s, exec i s = .next (streamGate (encode i) (streamBody i) s).okWrite := by
  simp only [List.mem_cons, List.not_mem_nil, or_false, Prod.mk.injEq] at h
  rcases h with ⟨rfl, rfl, rfl⟩ | ⟨rfl, rfl, rfl⟩ | ⟨rfl, rfl, rfl⟩ | ⟨rfl, rfl, rfl⟩ | ⟨rfl, rfl, rfl⟩ <;>
    exact ⟨rfl, fun _ => rfl⟩

/-- Settles O18: by the four answers of the gate (R202). -/
theorem streamCommandsPassAGate : Obligations.StreamCommandsPassAGate := by
  intro s d i off word hmem
  obtain ⟨hword, hexec⟩ := exec_streamCommand hmem
  rw [hexec s, hword]
  refine ⟨fun he => ?_, fun he hl => ?_, fun he hl => ?_, fun he hl => ?_⟩
  · rw [streamGate_of_err he]
    rfl
  · rw [streamGate_uninit he hl, setErr_of_not_err he]
    rfl
  · rw [streamGate_final he hl, setErr_of_not_err he]
    rfl
  · rw [streamGate_open he hl]
    exact ⟨_, rfl, (streamBody_err i s).trans he, streamBody_life i s⟩

/-! What appending bytes leaves in FILL, PQ and BUF, byte by byte (R201). -/

/-- Bytes that leave room in the block. -/
theorem appendBytes_of_room {bs : List Byte} {s : State} (hs : Memory.wf s.buf) (hroom : s.fill.toNat + bs.length < 64) :
    (appendBytes bs s).fill.toNat = s.fill.toNat + bs.length ∧ (appendBytes bs s).pq = s.pq ∧
      ∀ a, Memory.read (appendBytes bs s).buf a =
        if s.fill.toNat ≤ a ∧ a < s.fill.toNat + bs.length then bs.getD (a - s.fill.toNat) 0 else Memory.read s.buf a := by
  have hfill := (foldl_appendByte_fill bs s).trans (Nat.mod_eq_of_lt hroom)
  refine ⟨hfill, ?_⟩
  simp only [appendBytes, foldl_appendByte_of_lt bs s hroom, true_and]
  exact Memory.read_writeBytes hs hroom.le

/-- Bytes that fill the block: it is enqueued, and the bytes that do not fit start the next one. -/
theorem appendBytes_of_full {bs : List Byte} {s : State} (hs : Memory.wf s.buf) (hfull : 64 ≤ s.fill.toNat + bs.length)
    (hn : bs.length ≤ 64) :
    (appendBytes bs s).fill.toNat = s.fill.toNat + bs.length - 64 ∧
      ∃ blk, (appendBytes bs s).pq = s.pq ++ [blk] ∧
        (∀ a, Memory.read blk a =
          if s.fill.toNat ≤ a ∧ a < 64 then bs.getD (a - s.fill.toNat) 0 else Memory.read s.buf a) ∧
        ∀ a, Memory.read (appendBytes bs s).buf a =
          if a < s.fill.toNat + bs.length - 64 then bs.getD (64 - s.fill.toNat + a) 0 else Memory.read blk a := by
  have hlt := s.fill.isLt
  have hfill : (s.fill.toNat + bs.length) % 64 = s.fill.toNat + bs.length - 64 := by omega
  have fits : s.fill.toNat + (bs.take (64 - s.fill.toNat)).length = 64 := by rw [List.length_take]; omega
  have rest : (bs.drop (64 - s.fill.toNat)).length = s.fill.toNat + bs.length - 64 := by rw [List.length_drop]; omega
  have hblk := Memory.wf_writeBytes hs fits.le
  refine ⟨(foldl_appendByte_fill bs s).trans hfill, ?_⟩
  simp only [appendBytes, foldl_appendByte_of_full bs s hfull hn]
  refine ⟨_, rfl, fun a => ?_, fun a => ?_⟩
  · rw [Memory.read_writeBytes hs fits.le, fits]
    refine ite_congr rfl (fun ha => ?_) fun _ => rfl
    simp only [List.getD_eq_getElem?_getD, List.getElem?_take_of_lt (show a - s.fill.toNat < 64 - s.fill.toNat by omega)]
  · rw [Memory.read_writeBytes hblk (by omega), rest]
    simp only [Nat.zero_le, true_and, Nat.zero_add, Nat.sub_zero, List.getD_eq_getElem?_getD, List.getElem?_drop]

/-- UPDk appends lanes 0 to k-1 of its word (20_memory.md R73). -/
theorem dataBytes_of_updk {d : Word} {k : Nat} {i : Instr}
    (h : (k, i) ∈ [(1, Instr.upd1 d), (2, .upd2 d), (3, .upd3 d), (4, .upd4 d)]) :
    isDataWrite i = true ∧ dataBytes (encode i) = (List.range k).map (lane d) ∧ k ≤ 4 := by
  simp only [List.mem_cons, List.not_mem_nil, or_false, Prod.mk.injEq] at h
  rcases h with ⟨rfl, rfl⟩ | ⟨rfl, rfl⟩ | ⟨rfl, rfl⟩ | ⟨rfl, rfl⟩
  · exact ⟨rfl, dataBytes_upd1 d, by decide⟩
  · exact ⟨rfl, dataBytes_upd2 d, by decide⟩
  · exact ⟨rfl, dataBytes_upd3 d, by decide⟩
  · exact ⟨rfl, dataBytes_upd4 d, by decide⟩

theorem lanes_getD (d : Word) {k j : Nat} (hj : j < k) :
    ((List.range k).map (lane d)).getD j 0 = d.extractLsb' (8 * j) 8 := by
  simp [List.getD_eq_getElem?_getD, hj, lane]

/-- Settles O17: the gate is open, and the lanes either leave room in the block or fill it. -/
theorem dataWritesAppendTheirBytes : Obligations.DataWritesAppendTheirBytes := by
  intro s d k i hmem hs he hl
  obtain ⟨hi, hlanes, hk⟩ := dataBytes_of_updk hmem
  have hlen : ((List.range k).map (lane d)).length = k := by simp
  have hlt := s.fill.isLt
  obtain ⟨hh, hcount, halg, -, herr, hcause, herrData, hport, -, hreset, -, -⟩ :=
    foldl_appendByte_frame ((List.range k).map (lane d)) s
  rw [exec_dataWrite hi, hlanes, streamGate_open he hl]
  refine ⟨_, rfl, rfl, ?_, fun hroom => ?_, fun hfull => ?_, hh, halg, herr, hcause, herrData, hport, hreset, rfl⟩
  · simp only [okWrite_len, appendBytes, hcount, hlen]
  · obtain ⟨hfill, hpq, hbuf⟩ := appendBytes_of_room hs (hlen.symm ▸ hroom)
    rw [hlen] at hfill hbuf
    refine ⟨hfill, hpq, fun a => (hbuf a).trans (ite_congr rfl (fun ha => lanes_getD d ?_) fun _ => rfl)⟩
    omega
  · obtain ⟨hfill, blk, hpq, hblk, hbuf⟩ := appendBytes_of_full hs (hlen.symm ▸ hfull) (by omega)
    rw [hlen] at hfill hbuf
    refine ⟨hfill, blk, hpq, fun a => (hblk a).trans (ite_congr rfl (fun ha => lanes_getD d ?_) fun _ => rfl),
      fun a => (hbuf a).trans (ite_congr rfl (fun ha => lanes_getD d ?_) fun _ => rfl)⟩ <;>
    omega

end Sys2Proof.Machine
end

section
/-! Chunking invariance (42_stream_commands.md R210). The idea: a run of data writes does what writing its bytes one at a time
does, each byte with the core's retires behind it, so the run depends on the bytes alone. Appends and retires commute,
which lets the blocks of one write retire before its last byte is appended. -/

namespace Sys2Proof.Machine

/-! Runs of the engine. -/

theorem runSteps_succ {s t : State} (h : step s = .next t) (n : Nat) : runSteps (n + 1) s = runSteps n t := by
  simp only [runSteps, h]

theorem runSteps_add (m n : Nat) (s : State) : runSteps (m + n) s = runSteps n (runSteps m s) := by
  induction m generalizing s with
  | zero => rw [Nat.zero_add]; rfl
  | succ m ih =>
    obtain ⟨t, ht⟩ := step_answers s
    rw [Nat.succ_add, runSteps_succ ht, runSteps_succ ht, ih]

/-- With no free access enabled the queued blocks retire, one a step (70_reset_and_hazards.md R340). -/
theorem runSteps_eq_drain {s : State} (hr : s.resetIn = false) (hf : firstFree [] s.port = none) :
    runSteps s.pq.length s = drain s := by
  generalize hn : s.pq.length = n
  induction n generalizing s with
  | zero => exact (drain_of_nil (List.length_eq_zero_iff.mp hn)).symm
  | succ n ih =>
    obtain ⟨blk, rest, hq⟩ := List.exists_cons_of_length_eq_add_one hn
    have hstep : step s = .next (retire s) := by
      simp only [step, nextAction_retire hr (by simp [hq]) hf]
    rw [runSteps_succ hstep, drain_of_cons hq]
    exact ih (by rwa [retire_resetIn]) (by rwa [retire_port]) (by simpa [retire_pq, hq] using hn)

/-- A field that a retire leaves alone, draining the queue leaves alone. -/
theorem drain_frame {α : Type} {field : State → α} (h : ∀ s, field (retire s) = field s) (s : State) :
    field (drain s) = field s := by
  unfold drain
  generalize s.pq.length = n
  induction n generalizing s with
  | zero => rfl
  | succ n ih => exact (ih (retire s)).trans (h s)

theorem drain_retire (s : State) : drain (retire s) = drain s := by
  cases hq : s.pq with
  | nil => rw [retire_of_nil hq]
  | cons blk rest => exact (drain_of_cons hq).symm

/-! Appends, one after the other, and with retires between them. -/

/-- A byte append neither reads nor writes LEN and STATE. -/
theorem appendByte_withCount (s : State) (n : BitVec 64) (l : Lifecycle) (b : Byte) :
    appendByte { s with len := n, life := l } b = { appendByte s b with len := n, life := l } := by
  unfold appendByte
  dsimp only
  split <;> rfl

theorem foldl_appendByte_withCount (bs : List Byte) (s : State) (n : BitVec 64) (l : Lifecycle) :
    bs.foldl appendByte { s with len := n, life := l } = { bs.foldl appendByte s with len := n, life := l } :=
  List.foldl_hom (fun s : State => { s with len := n, life := l }) fun s b => appendByte_withCount s n l b

theorem appendBytes_append (xs ys : List Byte) (s : State) :
    appendBytes (xs ++ ys) s = appendBytes ys (appendBytes xs s) := by
  obtain ⟨-, hlen, -⟩ := foldl_appendByte_frame ys (xs.foldl appendByte s)
  simp only [appendBytes, foldl_appendByte_withCount, foldl_appendByte_append, hlen, List.length_append, BitVec.ofNat_add,
    BitVec.add_assoc]

/-- The core takes the head of the queue, an append adds at its tail. -/
theorem appendByte_retire (b : Byte) {s : State} (hq : s.pq ≠ []) : appendByte (retire s) b = retire (appendByte s b) := by
  obtain ⟨blk, rest, hq⟩ := List.exists_cons_of_ne_nil hq
  have hlt := s.fill.isLt
  rcases Nat.lt_or_ge (s.fill.toNat + 1) 64 with hroom | hfull
  · rw [appendByte_of_lt hroom, appendByte_of_lt (by rwa [retire_fill]), retire_of_cons hq, retire_of_cons (by exact hq)]
  · have hlast : s.fill.toNat + 1 = 64 := by omega
    rw [appendByte_of_full hlast, appendByte_of_full (by rwa [retire_fill]), retire_of_cons hq,
      retire_of_cons (by simp only [hq, List.cons_append]; rfl)]

theorem appendByte_pq_ne_nil (b : Byte) {s : State} (hq : s.pq ≠ []) : (appendByte s b).pq ≠ [] := by
  unfold appendByte
  dsimp only
  split
  · simp
  · exact hq

theorem foldl_appendByte_retire (bs : List Byte) {s : State} (hq : s.pq ≠ []) :
    bs.foldl appendByte (retire s) = retire (bs.foldl appendByte s) := by
  induction bs generalizing s with
  | nil => rfl
  | cons b bs ih => rw [List.foldl_cons, appendByte_retire b hq, ih (appendByte_pq_ne_nil b hq), List.foldl_cons]

/-- A retire neither reads nor writes LEN and STATE. -/
theorem retire_withCount (s : State) (n : BitVec 64) (l : Lifecycle) :
    retire { s with len := n, life := l } = { retire s with len := n, life := l } := by
  unfold retire
  dsimp only
  split <;> rfl

theorem appendBytes_retire (bs : List Byte) {s : State} (hq : s.pq ≠ []) :
    appendBytes bs (retire s) = retire (appendBytes bs s) := by
  simp only [appendBytes, foldl_appendByte_retire bs hq, retire_withCount, retire_len]

/-- The blocks queued before an append may retire before it or after it. -/
theorem drain_appendBytes_drain (bs : List Byte) (s : State) :
    drain (appendBytes bs (drain s)) = drain (appendBytes bs s) := by
  generalize hn : s.pq.length = n
  induction n generalizing s with
  | zero => rw [drain_of_nil (List.length_eq_zero_iff.mp hn)]
  | succ n ih =>
    obtain ⟨blk, rest, hq⟩ := List.exists_cons_of_length_eq_add_one hn
    have hrest : (retire s).pq.length = n := by simpa [retire_pq, hq] using hn
    rw [drain_of_cons hq, ih (retire s) hrest, appendBytes_retire bs (by simp [hq]), drain_retire]

/-- Writes one byte and lets the core retire every block. -/
def absorbByte (s : State) (b : Byte) : State :=
  drain (appendBytes [b] s)

/-- Writing bytes together does what writing them one at a time does. -/
theorem drain_appendBytes (b : Byte) (bs : List Byte) (s : State) :
    drain (appendBytes (b :: bs) s) = (b :: bs).foldl absorbByte s := by
  induction bs generalizing b s with
  | nil => rfl
  | cons c bs ih =>
    calc drain (appendBytes ([b] ++ c :: bs) s)
      _ = drain (appendBytes (c :: bs) (appendBytes [b] s)) := by rw [appendBytes_append]
      _ = drain (appendBytes (c :: bs) (absorbByte s b)) := (drain_appendBytes_drain ..).symm
      _ = (c :: bs).foldl absorbByte (absorbByte s b) := ih c (absorbByte s b)

theorem SameStream.foldl_absorbByte {s t : State} (hst : SameStream s t) (bs : List Byte) :
    SameStream (bs.foldl absorbByte s) (bs.foldl absorbByte t) := by
  induction bs generalizing s t with
  | nil => exact hst
  | cons b bs ih => exact ih (hst.appendBytes [b]).drain

/-! Data writes at the port. -/

/-- The engine accepts its next request at once, and a data write passes the gate. -/
structure TakesData (s : State) : Prop where
  resetIn : s.resetIn = false
  pq : s.pq = []
  err : s.err = false
  life : s.life = .ready ∨ s.life = .accum

theorem dataBytes_ne_nil (b : Bow) : dataBytes b ≠ [] := by
  simp [dataBytes, updCount]

/-- Data writes are held while a block is queued (70_reset_and_hazards.md R340). -/
theorem firstFree_dataWrites {is : List Instr} (h : ∀ i ∈ is, isDataWrite i = true) (path : Nat) :
    firstFree [] (requests path is) = none := by
  refine firstFree_eq_none fun q hq => .inl ?_
  obtain ⟨i, hi, rfl⟩ := List.mem_map.mp hq
  simp [free, encode, isWrite_of_isDataWrite (h i hi)]

/-- A data write at the head of the port is accepted and appends its bytes (R201, R202). -/
theorem step_of_dataWrite {s : State} (hs : TakesData s) {i : Instr} (hi : isDataWrite i = true) {path : Nat}
    {rest : List Request} (hp : s.port = ⟨path, encode i⟩ :: rest) :
    ∃ t, step s = .next t ∧ SameStream (appendBytes (dataBytes (encode i)) s) t ∧ t.port = rest ∧ t.resetIn = false ∧
      t.err = false := by
  obtain ⟨hr, hq, he, hl⟩ := hs
  have hstep : step s = .next (appendBytes (dataBytes (encode i)) (takeRequest rest s)).okWrite := by
    rw [step_of_accept (nextAction_of_not_busy hr hq hp) (decode_encode i), exec_dataWrite hi,
      streamGate_open (s := takeRequest rest s) he hl]
  exact ⟨_, hstep, ((SameStream.takeRequest rest s).appendBytes _).trans (.okWrite _), appendBytes_port ..,
    (appendBytes_resetIn ..).trans hr, (appendBytes_err ..).trans he⟩

/-- One data write and the retires behind it absorb its bytes. -/
theorem runSteps_dataWrite {s : State} (hs : TakesData s) {i : Instr} {is : List Instr} (hi : isDataWrite i = true)
    (his : ∀ j ∈ is, isDataWrite j = true) {path : Nat} (hp : s.port = requests path (i :: is)) :
    ∃ n, SameStream ((dataBytes (encode i)).foldl absorbByte s) (runSteps n s) ∧ TakesData (runSteps n s) ∧
      (runSteps n s).port = requests path is := by
  obtain ⟨t, hstep, hst, hport, hreset, herr⟩ := step_of_dataWrite hs hi hp
  have hrun : runSteps (t.pq.length + 1) s = drain t := by
    rw [runSteps_succ hstep, runSteps_eq_drain hreset]
    exact hport ▸ firstFree_dataWrites his path
  have habsorb : (dataBytes (encode i)).foldl absorbByte s = drain (appendBytes (dataBytes (encode i)) s) := by
    obtain ⟨b, bs, hbs⟩ := List.exists_cons_of_ne_nil (dataBytes_ne_nil (encode i))
    rw [hbs, drain_appendBytes]
  refine ⟨t.pq.length + 1, ?_, ?_, ?_⟩ <;> rw [hrun]
  · rw [habsorb]
    exact hst.drain
  · exact ⟨(drain_frame retire_resetIn t).trans hreset, drain_pq t, (drain_frame retire_err t).trans herr,
      .inr ((drain_frame retire_life t).trans hst.life)⟩
  · exact (drain_frame retire_port t).trans hport

/-- Any data writes, one behind the other, absorb the bytes they carry. -/
theorem runSteps_dataWrites {s : State} (hs : TakesData s) {is : List Instr} (his : ∀ i ∈ is, isDataWrite i = true)
    {path : Nat} (hp : s.port = requests path is) :
    ∃ n, SameStream ((streamBytes is).foldl absorbByte s) (runSteps n s) ∧ TakesData (runSteps n s) ∧
      (runSteps n s).port = [] := by
  induction is generalizing s with
  | nil => exact ⟨0, .refl s, hs, hp⟩
  | cons i is ih =>
    obtain ⟨hi, his⟩ := List.forall_mem_cons.mp his
    obtain ⟨m, hfirst, ht, hport⟩ := runSteps_dataWrite hs hi his hp
    obtain ⟨n, hrest, hu, hempty⟩ := ih ht his hport
    refine ⟨m + n, ?_, ?_, ?_⟩ <;> rw [runSteps_add]
    · rw [streamBytes_cons, List.foldl_append]
      exact (hfirst.foldl_absorbByte _).trans hrest
    · exact hu
    · exact hempty

/-- The same, for an engine whose port is given the data writes: the result does not depend on what the port held. -/
theorem runSteps_issued_dataWrites {s : State} (hs : TakesData s) {is : List Instr}
    (his : ∀ i ∈ is, isDataWrite i = true) (path : Nat) :
    ∃ n, SameStream ((streamBytes is).foldl absorbByte s) (runSteps n { s with port := requests path is }) ∧
      TakesData (runSteps n { s with port := requests path is }) ∧
      (runSteps n { s with port := requests path is }).port = [] := by
  obtain ⟨hr, hq, he, hl⟩ := hs
  have same : SameStream s { s with port := requests path is } := ⟨rfl, rfl, rfl, rfl, rfl, rfl, rfl⟩
  obtain ⟨n, hrun, hend⟩ := runSteps_dataWrites (s := { s with port := requests path is }) ⟨hr, hq, he, hl⟩ his rfl
  exact ⟨n, (same.foldl_absorbByte _).trans hrun, hend⟩

/-- Settles O47: both runs absorb the same bytes. -/
theorem chunkingDoesNotMatter : Obligations.ChunkingDoesNotMatter := by
  intro s path xs ys hr hq he hl hxs hys hbytes
  have hs : TakesData s := ⟨hr, hq, he, hl⟩
  obtain ⟨n, hu, hud, hup⟩ := runSteps_issued_dataWrites hs hxs path
  obtain ⟨m, hv, hvd, hvp⟩ := runSteps_issued_dataWrites hs hys path
  rw [← hbytes] at hv
  exact ⟨n, m, hup, hvp, hud.pq, hvd.pq, hu.h.trans hv.h.symm, hu.buf.trans hv.buf.symm, hu.fill.trans hv.fill.symm,
    hu.len.trans hv.len.symm, hu.life.trans hv.life.symm, hud.err, hvd.err⟩

end Sys2Proof.Machine
end

section
/-! The padding of FINAL (43_finalize.md R230 to R236): how long a padded message is, and the blocks FINAL enqueues, byte by
byte. -/

namespace Sys2Proof.Machine

/-- Settles O46: the zero fill makes the marker, the zeros and the 8 bytes of the length field end on a block boundary. -/
theorem paddedMessageBlockCount : Obligations.PaddedMessageBlockCount := by
  intro alg x
  simp only [paddedMessage, zeroFill, List.length_append, List.length_cons, List.length_replicate, lengthField_length]
  omega

/-- Byte `i` of the length field: least significant first in MD5 mode, most significant first in SHA-1 mode (R233, R234). -/
theorem lengthField_getD (alg : Alg) (len : BitVec 64) {i : Nat} (hi : i < 8) :
    (lengthField alg len).getD i 0 =
      if alg = .md5 then (len * 8).extractLsb' (8 * i) 8 else (len * 8).extractLsb' (8 * (7 - i)) 8 := by
  cases alg
  · exact le64_getD _ hi
  · exact be64_getD _ hi

/-- The last block of a stream: its first 56 bytes and the length field. -/
theorem read_writeBytes_lengthField {m : Memory} (hm : Memory.wf m) (alg : Alg) (len : BitVec 64) {j : Nat} (hj : j < 64) :
    Memory.read (Memory.writeBytes m 56 (lengthField alg len)) j =
      if j < 56 then Memory.read m j
      else if alg = .md5 then (len * 8).extractLsb' (8 * (j - 56)) 8
      else (len * 8).extractLsb' (8 * (63 - j)) 8 := by
  rw [Memory.read_writeBytes hm (by rw [lengthField_length]), lengthField_length]
  by_cases hlow : j < 56
  · rw [if_neg (by omega), if_pos hlow]
  · rw [if_pos (by omega), if_neg hlow, lengthField_getD alg len (by omega), show 7 - (j - 56) = 63 - j by omega]

/-- FINAL in READY or ACCUM passes the gate (R202, R230). -/
theorem exec_final {s : State} (he : s.err = false) (hl : s.life = .ready ∨ s.life = .accum) :
    exec .final s = .next (finishStream s).okWrite := by
  show Host.Outcome.next (streamGate (encode .final) finishStream s).okWrite = _
  rw [streamGate_open he hl]

/-- Settles O19: the gate is open, and the marker leaves room for the length field in its own block or it does not. -/
theorem finalPadsTheStream : Obligations.FinalPadsTheStream := by
  intro s hs he hl
  have hpad := wf_padBlock hs s.fill.isLt
  refine ⟨_, exec_final he hl, rfl, rfl, Memory.read_zero, fun hroom => ?_, fun hfull => ?_, finishStream_h s, finishStream_len s,
    finishStream_alg s, finishStream_err s, finishStream_cause s, finishStream_errData s, finishStream_port s,
    finishStream_resetIn s, rfl⟩
  · refine ⟨_, (finishStream_pq s).trans (by rw [if_neg (by omega)]), fun j hj => ?_⟩
    rw [read_writeBytes_lengthField hpad s.alg s.len hj, read_padBlock hs s.fill.isLt]
    by_cases hlow : j < 56
    · simp only [if_pos hlow]
    · rw [if_neg hlow, if_neg (show ¬j < s.fill.toNat by omega), if_neg (show ¬j = s.fill.toNat by omega), if_neg hlow]
  · refine ⟨_, _, (finishStream_pq s).trans (by rw [if_pos hfull]), fun j _ => read_padBlock hs s.fill.isLt j, fun j hj => ?_⟩
    rw [read_writeBytes_lengthField Memory.wf_zero s.alg s.len hj, Memory.read_zero]

end Sys2Proof.Machine
end

section
/-! The engine hashes its stream (43_finalize.md R236, R237). The idea: FINAL queues the very blocks that writing the padding as
data would queue, so one invariant of the byte append, carried from INIT over the data and on over the padding, gives H as the
chaining value of the whole padded message. -/

namespace Sys2Proof.Machine

/-! The blocks of FINAL are those of its padding, written as data. -/

theorem Memory.writeBytes_append (m : Memory) (a : Nat) (xs ys : List Byte) :
    Memory.writeBytes m a (xs ++ ys) = Memory.writeBytes (Memory.writeBytes m a xs) (a + xs.length) ys := by
  induction xs generalizing m a with
  | nil => rfl
  | cons x xs ih =>
    rw [List.cons_append, Memory.writeBytes_cons, Memory.writeBytes_cons, ih, List.length_cons, Nat.add_assoc, Nat.add_comm 1]

/-- Writing at `a` leaves the bytes below `a` alone. -/
theorem agreeBelow_writeBytes {m : Memory} (hm : Memory.wf m) {a : Nat} {bs : List Byte} (ha : a + bs.length ≤ 64) :
    AgreeBelow a (Memory.writeBytes m a bs) m := fun j hj => by
  rw [Memory.read_writeBytes hm ha, if_neg (by omega)]

/-- Bytes that reach the end of the block overwrite every byte at and above their address. -/
theorem AgreeBelow.writeBytes_eq {a : Nat} {m n : Memory} (h : AgreeBelow a m n) (hm : Memory.wf m) (hn : Memory.wf n)
    {bs : List Byte} (hbs : a + bs.length = 64) : Memory.writeBytes m a bs = Memory.writeBytes n a bs := by
  have hm' := Memory.wf_writeBytes hm hbs.le
  have hn' := Memory.wf_writeBytes hn hbs.le
  refine AgreeBelow.eq (fun j hj => ?_) hm' hn'
  rw [Memory.read_writeBytes hm hbs.le, Memory.read_writeBytes hn hbs.le]
  by_cases hja : j < a
  · rw [if_neg (by omega), if_neg (by omega), h j hja]
  · rw [if_pos (by omega), if_pos (by omega)]

/-- Bytes that fill the block exactly. -/
theorem foldl_appendByte_of_exact {bs : List Byte} {s : State} (h : s.fill.toNat + bs.length = 64) :
    bs.foldl appendByte s =
      { s with
        buf := Memory.writeBytes s.buf s.fill.toNat bs
        fill := 0
        pq := s.pq ++ [Memory.writeBytes s.buf s.fill.toNat bs] } := by
  rw [foldl_appendByte_of_full bs s h.ge (by omega), h, List.take_of_length_le (by omega), List.drop_of_length_le (by omega)]
  rfl

/-- With room for the length field, the padding is one run of bytes (43_finalize.md R231). -/
theorem padBlock_writeBytes_end {m : Memory} (hm : Memory.wf m) {p : Nat} (hp : p < 56) {bs : List Byte}
    (hbs : bs.length = 8) :
    Memory.writeBytes (padBlock m p) 56 bs = Memory.writeBytes m p (0x80 :: List.replicate (55 - p) 0 ++ bs) := by
  have hmark : p + (0x80 :: List.replicate (55 - p) (0 : Byte)).length = 56 := by simp; omega
  have hmarked := Memory.wf_writeBytes hm (hmark.trans_le (by decide))
  have hpad : padBlock m p =
      Memory.writeBytes (Memory.writeBytes m p (0x80 :: List.replicate (55 - p) 0)) 56 (List.replicate 8 0) := by
    rw [padBlock, show 63 - p = 55 - p + 8 by omega, List.replicate_add, ← List.cons_append, Memory.writeBytes_append, hmark]
  have hwf : Memory.wf (padBlock m p) := wf_padBlock hm (by omega)
  rw [Memory.writeBytes_append, hmark]
  exact AgreeBelow.writeBytes_eq (hpad ▸ agreeBelow_writeBytes hmarked (by simp)) hwf hmarked (by omega)

/-- A block of 56 zeros and the length field (R232), whatever stood in the buffer. -/
theorem writeBytes_zeros_end {m : Memory} (hm : Memory.wf m) {bs : List Byte} (hbs : bs.length = 8) :
    Memory.writeBytes m 0 (List.replicate 56 0 ++ bs) = Memory.writeBytes Memory.zero 56 bs := by
  have agree : AgreeBelow 56 (Memory.writeBytes m 0 (List.replicate 56 0)) Memory.zero := fun j hj => by
    rw [Memory.read_writeBytes hm (by simp), if_pos (by simpa using hj), Nat.sub_zero, List.getD_replicate (h := hj),
      Memory.read_zero]
  rw [Memory.writeBytes_append, List.length_replicate]
  exact agree.writeBytes_eq (Memory.wf_writeBytes hm (by simp)) Memory.wf_zero (by omega)

/-- The bytes FINAL adds to the stream (R231 to R234). -/
def State.padding (s : State) : List Byte :=
  0x80 :: List.replicate (zeroFill s.fill.toNat) 0 ++ lengthField s.alg s.len

/-- FINAL enqueues what writing its padding as data enqueues. -/
theorem finishStream_pq_eq_append_padding {s : State} (hs : Memory.wf s.buf) :
    (finishStream s).pq = (s.padding.foldl appendByte s).pq := by
  have hlt := s.fill.isLt
  have hfield := lengthField_length s.alg s.len
  rw [finishStream_pq, State.padding]
  rcases Nat.lt_or_ge s.fill.toNat 56 with hroom | hfull
  · have hzeros : zeroFill s.fill.toNat = 55 - s.fill.toNat := by unfold zeroFill; omega
    rw [if_neg (by omega), hzeros, padBlock_writeBytes_end hs hroom hfield, foldl_appendByte_of_exact (by simp; omega)]
  · have hzeros : zeroFill s.fill.toNat = 63 - s.fill.toNat + 56 := by unfold zeroFill; omega
    rw [if_pos hfull, hzeros, List.replicate_add, ← List.cons_append, List.append_assoc, foldl_appendByte_append,
      foldl_appendByte_of_exact (bs := 0x80 :: _) (by simp; omega), foldl_appendByte_of_exact (by simp; omega)]
    show _ = (s.pq ++ [padBlock s.buf s.fill.toNat]) ++ [Memory.writeBytes (padBlock s.buf s.fill.toNat) 0 _]
    rw [writeBytes_zeros_end (wf_padBlock hs hlt) hfield, List.append_assoc]
    rfl

/-! The chaining value of whole blocks. -/

/-- The chaining value after the first `n` blocks of `p` (R236). -/
def chainAfter (alg : Alg) (p : List Byte) (n : Nat) : Chain :=
  (List.range n).foldl (fun h k => compress alg h (blockByte p k)) (initialValue alg)

theorem hashChain_eq (alg : Alg) (x : List Byte) :
    hashChain alg x = chainAfter alg (paddedMessage alg x) ((paddedMessage alg x).length / 64) := rfl

theorem chainAfter_zero (alg : Alg) (p : List Byte) : chainAfter alg p 0 = initialValue alg := rfl

theorem chainAfter_succ (alg : Alg) (p : List Byte) (n : Nat) :
    chainAfter alg p (n + 1) = compress alg (chainAfter alg p n) (blockByte p n) := by
  simp only [chainAfter, List.range_succ, List.foldl_append, List.foldl_cons, List.foldl_nil]

theorem blockByte_append {p : List Byte} {k j : Nat} (h : 64 * k + j < p.length) (q : List Byte) :
    blockByte (p ++ q) k j = blockByte p k j := List.getD_append _ _ _ _ h

/-- Later bytes do not change the blocks before them. -/
theorem chainAfter_append {p : List Byte} {n : Nat} (h : 64 * n ≤ p.length) (alg : Alg) (q : List Byte) :
    chainAfter alg (p ++ q) n = chainAfter alg p n := by
  induction n with
  | zero => rw [chainAfter_zero, chainAfter_zero]
  | succ n ih =>
    rw [chainAfter_succ, chainAfter_succ, ih (by omega), compress_congr fun j hj => blockByte_append (by omega) q]

/-- The chaining value once every queued block has retired (10_state.md R43). -/
def State.chain (s : State) : Chain :=
  s.pq.foldl (fun h m => compress s.alg h (Memory.read m)) s.h

theorem chain_retire (s : State) : (retire s).chain = s.chain := by
  cases hq : s.pq with
  | nil => rw [retire_of_nil hq]
  | cons blk rest => rw [retire_of_cons hq, State.chain, State.chain, hq]; rfl

theorem chain_of_queue_empty {s : State} (hq : s.pq = []) : s.chain = s.h := by
  rw [State.chain, hq]; rfl

theorem chain_congr {s t : State} (halg : t.alg = s.alg) (hh : t.h = s.h) (hpq : t.pq = s.pq) : t.chain = s.chain := by
  rw [State.chain, State.chain, halg, hh, hpq]

theorem chain_enqueue (m : Memory) (s : State) : (enqueue m s).chain = compress s.alg s.chain (Memory.read m) := by
  simp only [State.chain, enqueue_pq, enqueue_alg, enqueue_h, List.foldl_append, List.foldl_cons, List.foldl_nil]

/-! The invariant of the byte append. -/

/-- The engine has absorbed the bytes `x` since its INIT: the whole blocks of `x` are in H or queued for it, the rest is in BUF
(42_stream_commands.md R201). -/
structure Absorbed (x : List Byte) (s : State) : Prop where
  fill : s.fill.toNat = x.length % 64
  wf : Memory.wf s.buf
  bytes : ∀ j < s.fill.toNat, Memory.read s.buf j = blockByte x (x.length / 64) j
  chain : s.chain = chainAfter s.alg x (x.length / 64)

namespace Absorbed

theorem of_sameStream {x : List Byte} {s t : State} (hs : Absorbed x s) (hst : SameStream s t) : Absorbed x t where
  fill := hst.fill ▸ hs.fill
  wf := hst.buf ▸ hs.wf
  bytes := by rw [hst.fill, hst.buf]; exact hs.bytes
  chain := by rw [chain_congr hst.alg hst.h hst.pq, hst.alg, hs.chain]

theorem startStream (alg : Alg) {s : State} (hq : s.pq = []) : Absorbed [] (startStream alg s) where
  fill := rfl
  wf := Memory.wf_zero
  bytes := fun _ hj => absurd hj (Nat.not_lt_zero _)
  chain := chain_of_queue_empty hq

theorem drain {x : List Byte} {s : State} (hs : Absorbed x s) : Absorbed x (drain s) where
  fill := (congrArg BitVec.toNat (drain_frame retire_fill s)).trans hs.fill
  wf := (drain_frame retire_buf s).symm ▸ hs.wf
  bytes := by rw [drain_frame retire_fill s, drain_frame retire_buf s]; exact hs.bytes
  chain := by rw [drain_frame chain_retire s, drain_frame retire_alg s]; exact hs.chain

/-- The block being filled, with one byte more in it. -/
theorem read_write {x : List Byte} {s : State} (hs : Absorbed x s) (b : Byte) {j : Nat} (hj : j < s.fill.toNat + 1) :
    Memory.read (Memory.write s.buf s.fill.toNat b) j = blockByte (x ++ [b]) (x.length / 64) j := by
  have hfill := hs.fill
  rw [Memory.read_write hs.wf]
  by_cases hlast : s.fill.toNat = j
  · have hend : 64 * (x.length / 64) + j = x.length := by omega
    rw [if_pos hlast, blockByte, hend, List.getD_append_right _ _ _ _ le_rfl, Nat.sub_self]
    rfl
  · rw [if_neg hlast, hs.bytes j (by omega), blockByte_append (by omega)]

theorem appendByte {x : List Byte} {s : State} (hs : Absorbed x s) (b : Byte) :
    Absorbed (x ++ [b]) (appendByte s b) := by
  have hfill := hs.fill
  have hlt := s.fill.isLt
  have hlen : (x ++ [b]).length = x.length + 1 := List.length_append
  have hbefore : s.chain = chainAfter s.alg (x ++ [b]) (x.length / 64) :=
    hs.chain.trans (chainAfter_append (Nat.mul_div_le ..) s.alg [b]).symm
  have hcount : (Machine.appendByte s b).fill.toNat = (x ++ [b]).length % 64 := by
    rw [appendByte_fill, hfill, hlen, Nat.mod_add_mod]
  suffices h : (∀ j < (Machine.appendByte s b).fill.toNat,
        Memory.read (Machine.appendByte s b).buf j = blockByte (x ++ [b]) ((x ++ [b]).length / 64) j) ∧
      (Machine.appendByte s b).chain = chainAfter s.alg (x ++ [b]) ((x ++ [b]).length / 64) by
    obtain ⟨hbytes, hchain⟩ := h
    exact ⟨hcount, appendByte_wf_buf hs.wf b, hbytes, by rw [hchain, appendByte_alg]⟩
  rcases Nat.lt_or_ge (s.fill.toNat + 1) 64 with hroom | hfull
  · have hblocks : (x ++ [b]).length / 64 = x.length / 64 := by omega
    rw [hcount, hblocks, appendByte_of_lt hroom]
    exact ⟨fun j hj => hs.read_write b (by omega), hbefore⟩
  · have hblocks : (x ++ [b]).length / 64 = x.length / 64 + 1 := by omega
    have hblock : ∀ j < 64, Memory.read (Memory.write s.buf s.fill.toNat b) j = blockByte (x ++ [b]) (x.length / 64) j :=
      fun j hj => hs.read_write b (by omega)
    refine ⟨fun j hj => absurd hj (by omega), ?_⟩
    calc (Machine.appendByte s b).chain
      _ = compress s.alg s.chain (Memory.read (Memory.write s.buf s.fill.toNat b)) := by
        rw [appendByte_of_full (by omega)]
        exact chain_enqueue _ s
      _ = chainAfter s.alg (x ++ [b]) ((x ++ [b]).length / 64) := by
        rw [compress_congr hblock, hbefore, hblocks, chainAfter_succ]

theorem foldl_appendByte {x : List Byte} {s : State} (hs : Absorbed x s) (bs : List Byte) :
    Absorbed (x ++ bs) (bs.foldl Machine.appendByte s) := by
  induction bs generalizing x s with
  | nil => rwa [List.append_nil]
  | cons b bs ih =>
    rw [List.append_cons]
    exact ih (hs.appendByte b)

/-- A data write (R201). -/
theorem appendBytes {x : List Byte} {s : State} (hs : Absorbed x s) (bs : List Byte) :
    Absorbed (x ++ bs) (appendBytes bs s) :=
  let ⟨fill, wf, bytes, chain⟩ := hs.foldl_appendByte bs
  ⟨fill, wf, bytes, chain⟩

/-- FINAL leaves the digest's chaining value to the core (43_finalize.md R236, R237). -/
theorem finishStream_chain {x : List Byte} {s : State} (hs : Absorbed x s) (hlen : s.len = BitVec.ofNat 64 x.length) :
    (finishStream s).chain = hashChain s.alg x := by
  obtain ⟨hh, -, halg, -⟩ := foldl_appendByte_frame s.padding s
  have hpadded : x ++ s.padding = paddedMessage s.alg x := by
    simp only [paddedMessage, State.padding, zeroFill, hlen, hs.fill, Nat.mod_mod, List.append_assoc, List.cons_append]
  calc (finishStream s).chain
    _ = (s.padding.foldl Machine.appendByte s).chain :=
      chain_congr ((finishStream_alg s).trans halg.symm) ((finishStream_h s).trans hh.symm)
        (finishStream_pq_eq_append_padding hs.wf)
    _ = hashChain s.alg x := by rw [(hs.foldl_appendByte s.padding).chain, hpadded, halg, hashChain_eq]

end Absorbed

/-! The run: INIT, the data writes and FINAL, each accepted once the blocks before it have retired. -/

/-- Writes are held while a block is queued (70_reset_and_hazards.md R340). -/
theorem firstFree_writes {is : List Instr} (h : ∀ i ∈ is, i.isWrite = true) (path : Nat) :
    firstFree [] (requests path is) = none := by
  refine firstFree_eq_none fun q hq => .inl ?_
  obtain ⟨i, hi, rfl⟩ := List.mem_map.mp hq
  simp [free, encode, h i hi]

/-- The core retires what a step has queued before the writes that wait behind it. -/
theorem runSteps_step_drain {s t : State} (hstep : step s = .next t) (hr : t.resetIn = false) {path : Nat} {is : List Instr}
    (hp : t.port = requests path is) (his : ∀ i ∈ is, i.isWrite = true) : ∃ n, runSteps n s = drain t :=
  ⟨t.pq.length + 1, by rw [runSteps_succ hstep, runSteps_eq_drain hr (hp ▸ firstFree_writes his path)]⟩

/-- A stream of algorithm `alg` with the bytes `x` written so far, ready for its next operation. -/
structure MidStream (alg : Alg) (x : List Byte) (s : State) : Prop where
  takes : TakesData s
  alg_eq : s.alg = alg
  len : s.len = BitVec.ofNat 64 x.length
  absorbed : Absorbed x s

/-- INIT at the head of the port starts the stream (42_stream_commands.md R204, R205). -/
theorem step_of_init {s : State} (hr : s.resetIn = false) (hq : s.pq = []) {alg : Alg} {path : Nat} {rest : List Request}
    (hp : s.port = ⟨path, encode (initInstr alg)⟩ :: rest) :
    ∃ t, step s = .next t ∧ MidStream alg [] t ∧ t.port = rest := by
  have hstep : step s = .next (startStream alg (takeRequest rest s)).okWrite := by
    rw [step_of_accept (nextAction_of_not_busy hr hq hp) (decode_encode _), exec_initInstr]
  exact ⟨_, hstep, ⟨⟨hr, hq, rfl, .inl rfl⟩, rfl, rfl,
    (Absorbed.startStream alg (s := takeRequest rest s) hq).of_sameStream (.okWrite _)⟩, rfl⟩

/-- One data write and the retires behind it. -/
theorem MidStream.runSteps_dataWrite {alg : Alg} {x : List Byte} {s : State} (hs : MidStream alg x s) {i : Instr}
    (hi : isDataWrite i = true) {is : List Instr} (his : ∀ j ∈ is, j.isWrite = true) {path : Nat}
    (hp : s.port = requests path (i :: is)) :
    ∃ n, MidStream alg (x ++ dataBytes (encode i)) (runSteps n s) ∧ (runSteps n s).port = requests path is := by
  obtain ⟨t, hstep, hst, hport, hreset, herr⟩ := step_of_dataWrite hs.takes hi hp
  obtain ⟨n, hrun⟩ := runSteps_step_drain hstep hreset hport his
  have hlen : t.len = BitVec.ofNat 64 (x ++ dataBytes (encode i)).length := by
    obtain ⟨-, hkept, -⟩ := foldl_appendByte_frame (dataBytes (encode i)) s
    rw [hst.len, appendBytes, hkept, hs.len, List.length_append, BitVec.ofNat_add]
  have takes : TakesData (drain t) :=
    ⟨(drain_frame retire_resetIn t).trans hreset, drain_pq t, (drain_frame retire_err t).trans herr,
      .inr ((drain_frame retire_life t).trans hst.life)⟩
  refine ⟨n, ?_, ?_⟩ <;> rw [hrun]
  · exact ⟨takes, (drain_frame retire_alg t).trans (hst.alg.trans ((appendBytes_alg ..).trans hs.alg_eq)),
      (drain_frame retire_len t).trans hlen, ((hs.absorbed.appendBytes _).of_sameStream hst).drain⟩
  · exact (drain_frame retire_port t).trans hport

/-- Any data writes in front of other writes. -/
theorem MidStream.runSteps_dataWrites {alg : Alg} {x : List Byte} {s : State} (hs : MidStream alg x s) {xs : List Instr}
    (hxs : ∀ i ∈ xs, isDataWrite i = true) {is : List Instr} (his : ∀ j ∈ is, j.isWrite = true) {path : Nat}
    (hp : s.port = requests path (xs ++ is)) :
    ∃ n, MidStream alg (x ++ streamBytes xs) (runSteps n s) ∧ (runSteps n s).port = requests path is := by
  induction xs generalizing x s with
  | nil => exact ⟨0, (List.append_nil x).symm ▸ hs, hp⟩
  | cons i xs ih =>
    obtain ⟨hi, hxs⟩ := List.forall_mem_cons.mp hxs
    have hbehind : ∀ j ∈ xs ++ is, j.isWrite = true := fun j hj =>
      (List.mem_append.mp hj).elim (fun hj => isWrite_of_isDataWrite (hxs j hj)) (his j)
    obtain ⟨m, hfirst, hport⟩ := hs.runSteps_dataWrite hi hbehind hp
    obtain ⟨n, hrest, hport⟩ := ih hfirst hxs hport
    rw [← runSteps_add] at hrest hport
    rw [streamBytes_cons, ← List.append_assoc]
    exact ⟨m + n, hrest, hport⟩

/-- FINAL at the head of the port is accepted and pads the stream (43_finalize.md R230). -/
theorem step_of_final {s : State} (hs : TakesData s) {path : Nat} {rest : List Request}
    (hp : s.port = ⟨path, encode .final⟩ :: rest) :
    ∃ t, step s = .next t ∧ SameStream (finishStream s) t ∧ t.port = rest ∧ t.resetIn = false ∧ t.err = false := by
  obtain ⟨hr, hq, he, hl⟩ := hs
  have hstep : step s = .next (finishStream (takeRequest rest s)).okWrite := by
    rw [step_of_accept (nextAction_of_not_busy hr hq hp) (decode_encode _), exec_final (s := takeRequest rest s) he hl]
  exact ⟨_, hstep, (SameStream.takeRequest rest s).finishStream.trans (.okWrite _), finishStream_port _,
    (finishStream_resetIn _).trans hr, (finishStream_err _).trans he⟩

/-- FINAL and the retires behind it (R236, 60_exceptions.md R323). -/
theorem MidStream.runSteps_final {alg : Alg} {x : List Byte} {s : State} (hs : MidStream alg x s) {path : Nat}
    (hp : s.port = requests path [.final]) :
    ∃ n, (runSteps n s).port = [] ∧ (runSteps n s).DigestValid ∧ (runSteps n s).alg = alg ∧
      (runSteps n s).len = BitVec.ofNat 64 x.length ∧ (runSteps n s).h = hashChain alg x := by
  obtain ⟨t, hstep, hst, hport, hreset, herr⟩ := step_of_final hs.takes hp
  obtain ⟨n, hrun⟩ := runSteps_step_drain (is := []) hstep hreset hport (by simp)
  have hchain : (drain t).h = hashChain alg x :=
    calc (drain t).h
      _ = (drain t).chain := (chain_of_queue_empty (drain_pq t)).symm
      _ = t.chain := drain_frame chain_retire t
      _ = (finishStream s).chain := chain_congr hst.alg hst.h hst.pq
      _ = hashChain alg x := by rw [hs.absorbed.finishStream_chain hs.len, hs.alg_eq]
  refine ⟨n, ?_⟩
  rw [hrun, drain_frame retire_port, drain_frame retire_alg, drain_frame retire_len]
  exact ⟨hport, ⟨(drain_frame retire_err t).trans herr, (drain_frame retire_life t).trans hst.life, drain_pq t⟩,
    hst.alg.trans ((finishStream_alg s).trans hs.alg_eq), hst.len.trans ((finishStream_len s).trans hs.len), hchain⟩

/-- Settles O48: INIT starts a stream, the data writes absorb their bytes, and FINAL leaves the digest's chaining value. -/
theorem engineHashesTheStream : Obligations.EngineHashesTheStream := by
  intro s path alg xs hr hq hxs hp
  obtain ⟨t, hstep, ht, hport⟩ := step_of_init hr hq hp
  obtain ⟨m, hu, hport⟩ := ht.runSteps_dataWrites (is := [.final]) hxs (by simp [Instr.isWrite]) hport
  obtain ⟨n, hend⟩ := hu.runSteps_final hport
  rw [← runSteps_add, ← runSteps_succ hstep, List.nil_append] at hend
  exact ⟨m + n + 1, hend⟩

end Sys2Proof.Machine
end

section
/-! The plain register reads (44_register_access.md R250 to R270). A read answers with one word of the state or with a
constant, so what is left to say is which word: the register index of the offset for STATEk, the halves of LEN, and 0 for
CMD and DATA1 to DATA4. -/

namespace Sys2Proof.Machine

theorem lenLo_eq_setWidth (l : BitVec 64) : lenLo l = l.setWidth 32 :=
  (BitVec.setWidth_eq_extractLsb' (by decide)).symm

theorem lenHi_eq_setWidth (l : BitVec 64) : lenHi l = (l >>> 32).setWidth 32 :=
  BitVec.setWidth_ushiftRight_eq_extractLsb.symm

theorem exec_rdLenLo (s : State) : exec .rdLenLo s = .next (s.okRead (s.len.setWidth 32)) := by
  rw [← lenLo_eq_setWidth]
  rfl

theorem exec_rdLenHi (s : State) : exec .rdLenHi s = .next (s.okRead ((s.len >>> 32).setWidth 32)) := by
  rw [← lenHi_eq_setWidth]
  rfl

/-- RD.STATEk answers with the word of H at the index its own offset encodes (30_encoding.md R104). -/
theorem exec_rdState {k : Nat} {i : Instr}
    (h : (k, i) ∈ [(0, Instr.rdState0), (1, .rdState1), (2, .rdState2), (3, .rdState3), (4, .rdState4)]) (s : State) :
    exec i s = .next (s.okRead (s.h.word k)) := by
  simp only [List.mem_cons, List.not_mem_nil, or_false, Prod.mk.injEq] at h
  rcases h with ⟨rfl, rfl⟩ | ⟨rfl, rfl⟩ | ⟨rfl, rfl⟩ | ⟨rfl, rfl⟩ | ⟨rfl, rfl⟩ <;> rfl

/-- CMD and DATA1 to DATA4 keep no word to read back (R266 to R270). -/
theorem exec_read_writeOnly {i : Instr} (h : i ∈ [Instr.rdCmd, .rdData1, .rdData2, .rdData3, .rdData4]) (s : State) :
    exec i s = .next (s.okRead 0) := by
  simp only [List.mem_cons, List.not_mem_nil, or_false] at h
  rcases h with rfl | rfl | rfl | rfl | rfl <;> rfl

/-- Settles O21: ID and ERRDATA by the read itself, the others by the lemmas above. -/
theorem registerReadValues : Obligations.RegisterReadValues := by
  intro s
  exact ⟨rfl, rfl,
    exec_rdState (k := 0) (by decide) s, exec_rdState (k := 1) (by decide) s, exec_rdState (k := 2) (by decide) s,
    exec_rdState (k := 3) (by decide) s, exec_rdState (k := 4) (by decide) s,
    exec_rdLenLo s, exec_rdLenHi s,
    exec_read_writeOnly (by decide) s, exec_read_writeOnly (by decide) s, exec_read_writeOnly (by decide) s,
    exec_read_writeOnly (by decide) s, exec_read_writeOnly (by decide) s⟩

end Sys2Proof.Machine
end

section
/-! The record of an error (60_exceptions.md R300 to R312): what one step does to ERR, CAUSE and ERRDATA, said once for the
rules about them, and what a word that decodes to no operation leaves alone. -/

namespace Sys2Proof.Machine

/-! Steps that go on, and the idle one. -/

/-- Settles O12: every case of the next action answers a state. -/
theorem stepAlwaysGoesOn : Obligations.StepAlwaysGoesOn := step_answers

/-- Settles O13: the next action is the idle one, which the model takes to leave the state (log 11). -/
theorem idleEngineDoesNothing : Obligations.IdleEngineDoesNothing := by
  intro s hr hq hp
  unfold step
  rw [nextAction_idle hr hq hp]

/-! The poisoned stream. -/

/-- Settles O29: the gate keeps data writes and FINAL out while ERR = 1, so only a retire writes a register of the stream. -/
theorem poisonedStreamStandsStill : Obligations.PoisonedStreamStandsStill := by
  intro s t hstep herr hreset hmd5 hsha1
  cases step_streamStep hstep with
  | reset hr _ => exact absurd hr (by simp [hreset])
  | kept h => exact ⟨h.life, h.len, h.fill, h.alg, fun a => by rw [h.buf], .inl ⟨h.pq, h.h⟩⟩
  | retired blk rest hq h =>
    rw [h, retire_of_cons hq]
    exact ⟨rfl, rfl, rfl, rfl, fun _ => rfl, .inr ⟨blk, hq, rfl⟩⟩
  | started alg ha _ _ =>
    cases alg with
    | md5 => exact absurd ha hmd5
    | sha1 => exact absurd ha hsha1
  | appended _ _ _ he _ _ _ => exact absurd herr (by simp [he])
  | finished _ he _ _ _ => exact absurd herr (by simp [he])

/-! States with the same record. -/

/-- `t` has the error record of `s`; everything else may differ. -/
structure SameRecord (s t : State) : Prop where
  err : t.err = s.err
  cause : t.cause = s.cause
  errData : t.errData = s.errData

namespace SameRecord

theorem trans {s t u : State} (hst : SameRecord s t) (htu : SameRecord t u) : SameRecord s u :=
  ⟨htu.err.trans hst.err, htu.cause.trans hst.cause, htu.errData.trans hst.errData⟩

theorem respond (resp : Response) (s : State) : SameRecord s (s.respond resp) := ⟨rfl, rfl, rfl⟩

theorem okWrite (s : State) : SameRecord s s.okWrite := respond _ s

theorem takeRequest (rest : List Request) (s : State) : SameRecord s (takeRequest rest s) := ⟨rfl, rfl, rfl⟩

theorem retire (s : State) : SameRecord s (retire s) := ⟨retire_err s, retire_cause s, retire_errData s⟩

theorem appendBytes (bs : List Byte) (s : State) : SameRecord s (appendBytes bs s) := by
  obtain ⟨-, -, -, -, herr, hcause, hdata, -⟩ := foldl_appendByte_frame bs s
  exact ⟨herr, hcause, hdata⟩

theorem finishStream (s : State) : SameRecord s (finishStream s) :=
  ⟨finishStream_err s, finishStream_cause s, finishStream_errData s⟩

/-- `SetErr` reads no register but ERR (R301). -/
theorem setErr {s t : State} (h : SameRecord s t) (c : Code) (b : Bow) : SameRecord (setErr c b s) (setErr c b t) := by
  cases he : s.err with
  | true => rwa [setErr_of_err he, setErr_of_err (h.err.trans he)]
  | false =>
    rw [setErr_of_not_err he, setErr_of_not_err (h.err.trans he)]
    exact ⟨rfl, rfl, rfl⟩

theorem errorRecordLegal {s t : State} (h : SameRecord s t) (hs : s.ErrorRecordLegal) : t.ErrorRecordLegal := by
  rwa [State.ErrorRecordLegal, h.err, h.cause, h.errData]

end SameRecord

/-! Words that decode to no operation. -/

/-- The cause code under which a rejected word is recorded (R302). -/
def rejectCode : Reject → Code
  | .illegalCmd => .illegalCmd
  | .badAccess => .badAccess
  | .badOffset => .badOffset

/-- A rejected word leaves the record of `SetErr` (R301), whatever its response is. -/
theorem SameRecord.rejectEffect (e : Reject) (r : Request) (s : State) :
    SameRecord (Machine.setErr (rejectCode e) r.bow s) (rejectEffect e r s) := by
  cases e <;> exact ⟨rfl, rfl, rfl⟩

/-- The bus response of a rejected word (R310). -/
theorem rejectEffect_resp (e : Reject) (r : Request) (s : State) :
    (rejectEffect e r s).resp =
      some (if e = .illegalCmd then ⟨.okay, none⟩ else ⟨.error, if r.bow.w then none else some 0⟩) := by
  cases e <;> rfl

/-- Settles O27: the step is `rejectEffect`, which records as `SetErr` does and writes no register of the stream. -/
theorem illegalWordsAreRecorded : Obligations.IllegalWordsAreRecorded := by
  intro s r rest e hr hq hp hd
  have hstep : step s = .next (rejectEffect e r (takeRequest rest s)) := by
    simp only [step, nextAction_of_not_busy hr hq hp, perform, hd]
  have record := SameRecord.rejectEffect e r (takeRequest rest s)
  have stream := (SameStream.takeRequest rest s).trans (.rejectEffect e r _)
  refine ⟨_, hstep, rejectEffect_err .., fun he => ?_, fun he => ?_, rejectEffect_resp .., fun hcmd => ?_,
    stream.h, fun a => by rw [stream.buf], stream.fill, stream.len, stream.alg, stream.life, stream.pq⟩
  · rw [setErr_of_not_err (s := takeRequest rest s) he] at record
    rw [record.cause, record.errData]
    exact ⟨rfl, rfl, by cases e <;> rfl, rfl⟩
  · rw [setErr_of_err (s := takeRequest rest s) he] at record
    exact ⟨record.cause, record.errData⟩
  · subst hcmd
    exact setErr_port ..

/-! What a step does to the record. -/

/-- `c` is a cause code that the word `b` can be recorded with (R302 to R307). -/
inductive Raises : Bow → Code → Prop where
  /-- UPDk or FINAL outside a stream. -/
  | misused (i : Instr) (hi : i = .final ∨ i.takesNoOperand = false) {c : Code} (hc : c = .notInit ∨ c = .finalized) :
      Raises (encode i) c
  /-- A word that decodes to no operation. -/
  | rejected {b : Bow} (e : Reject) (hd : decode b = .error e) : Raises b (rejectCode e)

/-- What one step does to ERR, CAUSE and ERRDATA. -/
inductive RecordStep (s t : State) : Prop where
  /-- Reset and INIT leave the record of the reset state (R312). -/
  | cleared (hw : s.resetIn = true ∨ s.Accepts .initMd5 ∨ s.Accepts .initSha1) (h : SameRecord State.reset t)
  | kept (h : SameRecord s t)
  /-- An error, which `SetErr` records if it is the first (R301). -/
  | raised (b : Bow) (c : Code) (hb : Raises b c) (h : SameRecord (setErr c b s) t)

/-- Every step is one of these. -/
theorem step_recordStep {s t : State} (hstep : step s = .next t) : RecordStep s t := by
  rcases step_effect hstep with ⟨hr, rfl⟩ | rfl | ⟨-, -, rfl⟩ | ⟨r, rest, -, ha, -, heff⟩
  · exact .cleared (.inl hr) ⟨rfl, rfl, rfl⟩
  · exact .kept ⟨rfl, rfl, rfl⟩
  · exact .kept (.retire s)
  · have taken := SameRecord.takeRequest rest s
    cases heff with
    | answered resp h => exact .kept (h ▸ taken.trans (.respond ..))
    | started alg hd h =>
      refine .cleared (.inr ?_) (h ▸ ⟨rfl, rfl, rfl⟩)
      cases alg with
      | md5 => exact .inl ⟨r, rest, ha, hd⟩
      | sha1 => exact .inr ⟨r, rest, ha, hd⟩
    | appended i _ _ _ _ h => exact .kept (h ▸ (taken.trans (.appendBytes ..)).trans (.okWrite _))
    | finished _ _ _ h => exact .kept (h ▸ (taken.trans (.finishStream _)).trans (.okWrite _))
    | misused i _ hi c hc _ h =>
      exact .raised (encode i) c (.misused i hi (hc.imp And.right And.right)) (h ▸ (taken.setErr ..).trans (.okWrite _))
    | rejected e hd h => exact .raised r.bow _ (.rejected e hd) (h ▸ (taken.setErr ..).trans (.rejectEffect ..))

/-! INIT and reset clear the record, and nothing else does (R312). -/

theorem sameRecord_reset_of_accepts_init {s t : State} (hstep : step s = .next t) {alg : Alg}
    (ha : s.Accepts (initInstr alg)) : SameRecord State.reset t := by
  obtain ⟨r, rest, haction, hd⟩ := ha
  rw [step_of_accept haction hd, exec_initInstr] at hstep
  cases hstep
  exact ⟨rfl, rfl, rfl⟩

/-- Settles O28: reset and INIT leave the record of the reset state; `SetErr` keeps an error that is already recorded. -/
theorem onlyInitAndResetClearAnError : Obligations.OnlyInitAndResetClearAnError := by
  intro s t hstep
  refine ⟨fun hw => ?_, fun herr hw => ?_⟩
  · have cleared : SameRecord State.reset t := by
      rcases hw with hr | ha | ha
      · rw [step_of_resetIn hr] at hstep
        cases hstep
        exact ⟨rfl, rfl, rfl⟩
      · exact sameRecord_reset_of_accepts_init (alg := .md5) hstep ha
      · exact sameRecord_reset_of_accepts_init (alg := .sha1) hstep ha
    exact ⟨cleared.err, cleared.cause, cleared.errData⟩
  · have kept : SameRecord s t := by
      cases step_recordStep hstep with
      | cleared hw' _ => exact absurd hw' hw
      | kept h => exact h
      | raised b c _ h => rwa [setErr_of_err herr] at h
    exact ⟨kept.err.trans herr, kept.cause, kept.errData⟩

/-! The record is one of the table of cause codes (R302, R308). -/

/-- UPDk and FINAL are written to DATA1 to DATA4 and CMD (30_encoding.md R107). -/
theorem encode_streamCommand {i : Instr} (hi : i = .final ∨ i.takesNoOperand = false) :
    isCommandOffset (encode i).off = true ∧ (encode i).w = true := by
  cases i
  case final | upd1 | upd2 | upd3 | upd4 => exact ⟨rfl, rfl⟩
  all_goals rcases hi with hi | hi <;> cases hi

theorem isCommandOffset_eq_false_of_notMem {off : BitVec 7} (h : off.toNat ∉ [0x04, 0x10, 0x14, 0x18, 0x1C]) :
    isCommandOffset off = false := by
  revert off
  decide

/-- The first error leaves a legal record. -/
theorem errorRecordLegal_setErr {s : State} (he : s.err = false) {b : Bow} {c : Code} (hb : Raises b c) :
    (setErr c b s).ErrorRecordLegal := by
  rw [setErr_of_not_err he]
  refine ⟨nofun, fun _ => ?_⟩
  have read_data (hw : b.w = false) : (if b.w then b.data else 0) = 0 := by rw [hw]; rfl
  cases hb with
  | misused i hi hc =>
    have command := encode_streamCommand hi
    rcases hc with rfl | rfl
    · exact ⟨nofun, read_data, nofun, fun _ => command, nofun, nofun⟩
    · exact ⟨nofun, read_data, nofun, nofun, fun _ => command, nofun⟩
  | rejected e hd =>
    obtain ⟨-, bad_offset, illegal_cmd⟩ := illegalWordsAreRejectedByName b
    cases e with
    | badAccess => exact ⟨nofun, read_data, nofun, nofun, nofun, nofun⟩
    | badOffset =>
      obtain ⟨-, haligned, hoff⟩ := bad_offset.mp hd
      refine ⟨nofun, read_data, nofun, nofun, nofun, fun _ =>
        ⟨haligned, fun (hw : b.w = true) => ?_, fun (hw : b.w = false) => ?_⟩⟩
      · rw [if_pos hw] at hoff
        exact isCommandOffset_eq_false_of_notMem hoff
      · rwa [if_neg (by simp [hw])] at hoff
    | illegalCmd =>
      obtain ⟨-, hw, hoff, -⟩ := illegal_cmd.mp hd
      exact ⟨nofun, read_data, fun _ => ⟨hoff, hw⟩, nofun, nofun, nofun⟩

/-- Settles O35: a cleared record and a kept one are legal, and an error is recorded only if it is the first. -/
theorem stepKeepsTheErrorRecordLegal : Obligations.StepKeepsTheErrorRecordLegal := by
  intro s t hs hstep
  cases step_recordStep hstep with
  | cleared _ h =>
    obtain ⟨-, reset_legal⟩ := resetMeetsTheInvariants
    exact h.errorRecordLegal reset_legal
  | kept h => exact h.errorRecordLegal hs
  | raised b c hb h =>
    cases he : s.err with
    | true => exact (setErr_of_err he c b ▸ h).errorRecordLegal hs
    | false => exact h.errorRecordLegal (errorRecordLegal_setErr he hb)

end Sys2Proof.Machine
end

section
/-! INIT as a fresh start (70_reset_and_hazards.md R348). -/

namespace Sys2Proof.Machine

/-- Settles O16: INIT writes every register of the stream and of the error record from constants, and keeps only PQ, which is
empty in both states. -/
theorem reinitForgetsTheOldStream : Obligations.ReinitForgetsTheOldStream := by
  intro s t u i hi hq ht hu
  obtain ⟨alg, rfl⟩ : ∃ alg, i = initInstr alg := by
    rcases hi with rfl | rfl
    · exact ⟨.md5, rfl⟩
    · exact ⟨.sha1, rfl⟩
  rw [exec_initInstr] at ht hu
  cases ht
  cases hu
  exact ⟨rfl, rfl, rfl, rfl, rfl, rfl, rfl, rfl, rfl, hq, rfl⟩

end Sys2Proof.Machine
end

section
/-! Which steps enqueue blocks (70_reset_and_hazards.md R349). -/

namespace Sys2Proof.Machine

theorem appendBytes_pq_of_lt {bs : List Byte} {s : State} (hroom : s.fill.toNat + bs.length < 64) :
    (appendBytes bs s).pq = s.pq := by
  rw [appendBytes, foldl_appendByte_of_lt bs s hroom]

theorem appendBytes_pq_length_of_full {bs : List Byte} {s : State} (hfull : 64 ≤ s.fill.toNat + bs.length)
    (hn : bs.length ≤ 64) : (appendBytes bs s).pq.length = s.pq.length + 1 := by
  simp [appendBytes, foldl_appendByte_of_full bs s hfull hn]

theorem finishStream_pq_length (s : State) :
    (finishStream s).pq.length = s.pq.length + if s.fill.toNat ≤ 55 then 1 else 2 := by
  rw [finishStream_pq, List.length_append]
  by_cases hroom : s.fill.toNat ≤ 55
  · rw [if_pos hroom, if_neg (by omega)]
    rfl
  · rw [if_neg hroom, if_pos (by omega)]
    rfl

/-- Settles O33: by what the step does to the stream registers; a data write has at most four bytes, so it fills at most one
block. -/
theorem blocksEnqueuedPerStep : Obligations.BlocksEnqueuedPerStep := by
  intro s t hstep hreset
  cases step_streamStep hstep with
  | reset hr _ => exact absurd hr (by simp [hreset])
  | kept h => exact .inl h.pq
  | retired _ _ _ h => exact .inr (.inl (by rw [h, retire_pq]))
  | started _ _ _ h => exact .inl h.pq
  | appended i hi ha _ _ _ h =>
    rcases Nat.lt_or_ge (s.fill.toNat + (dataBytes (encode i)).length) 64 with hroom | hfull
    · exact .inl (h.pq.trans (appendBytes_pq_of_lt hroom))
    · have hn : (dataBytes (encode i)).length ≤ 64 := (dataBytes_length_le _).trans (by decide)
      exact .inr (.inr (.inl ⟨i, hi, ha, hfull, by rw [h.pq, appendBytes_pq_length_of_full hfull hn]⟩))
  | finished ha _ _ _ h => exact .inr (.inr (.inr ⟨ha, by rw [h.pq, finishStream_pq_length]⟩))

end Sys2Proof.Machine
end

section
/-! Held operations (70_reset_and_hazards.md R340): while nothing at the port may be accepted, the steps are retires. -/

namespace Sys2Proof.Machine

/-- A field that a retire leaves alone, any number of retires leave alone. -/
theorem retires_frame {α : Type} {field : State → α} (h : ∀ s, field (retire s) = field s) (n : Nat) (s : State) :
    field (retires n s) = field s := by
  induction n generalizing s with
  | zero => rfl
  | succ n ih => exact (ih (retire s)).trans (h s)

theorem retires_pq (n : Nat) (s : State) : (retires n s).pq = s.pq.drop n := by
  induction n generalizing s with
  | zero => rfl
  | succ n ih => exact (ih (retire s)).trans (by rw [retire_pq, List.drop_tail])

theorem step_of_no_free {s : State} (hr : s.resetIn = false) (hq : s.pq ≠ []) (hf : firstFree [] s.port = none) :
    step s = .next (retire s) := by
  simp only [step, nextAction_retire hr hq hf]

/-- With no free access enabled the next steps are retires, as long as blocks are queued (R340). -/
theorem runSteps_eq_retires {s : State} (hr : s.resetIn = false) (hf : firstFree [] s.port = none) {n : Nat}
    (hn : n ≤ s.pq.length) : runSteps n s = retires n s := by
  induction n generalizing s with
  | zero => rfl
  | succ n ih =>
    have hq : s.pq ≠ [] := List.ne_nil_of_length_pos (by omega)
    rw [runSteps_succ (step_of_no_free hr hq hf)]
    exact ih (by rwa [retire_resetIn]) (by rwa [retire_port]) (by rw [retire_pq, List.length_tail]; omega)

/-- An operation that is not free holds everything on its path behind it (R340, log 10). -/
theorem firstFree_of_held {r : Request} {rest : List Request} (hr : free r.bow = false)
    (hrest : ∀ q ∈ rest, free q.bow = false ∨ q.path = r.path) : firstFree [] (r :: rest) = none := by
  have behind : firstFree [r.path] rest = none :=
    firstFree_eq_none fun q hq => (hrest q hq).imp_right fun hpath => by simp [hpath]
  simp [firstFree, hr, behind]

/-- With nothing queued the step performs the request at the head of the port (R340). -/
theorem step_of_queue_empty {s : State} (hr : s.resetIn = false) (hq : s.pq = []) {r : Request} {rest : List Request}
    (hp : s.port = r :: rest) : step s = perform r { s with port := rest } := by
  simp only [step, nextAction_of_not_busy hr hq hp, takeRequest_of_queue_empty hq]

/-- Settles O38: the steps before the queue is empty are retires, which keep port and response; the drained state then
accepts the head of the port. -/
theorem heldOperationRunsAfterTheRetires : Obligations.HeldOperationRunsAfterTheRetires := by
  intro s r rest hr hp hheld hrest
  have hf : firstFree [] s.port = none := hp ▸ firstFree_of_held hheld hrest
  have performed : step (runSteps s.pq.length s) = perform r { drain s with port := rest } := by
    rw [runSteps_eq_drain hr hf]
    exact step_of_queue_empty ((drain_frame retire_resetIn s).trans hr) (drain_pq s) ((drain_frame retire_port s).trans hp)
  refine ⟨fun n hn => ?_, fun i hd => ?_, fun e hd => ?_⟩
  · rw [runSteps_eq_retires hr hf hn]
    exact ⟨retires_frame retire_port n s, retires_pq n s, retires_frame retire_resp n s⟩
  · rw [performed, perform, hd]
  · rw [performed, perform, hd]

end Sys2Proof.Machine
end

section
/-! Free reads (70_reset_and_hazards.md R341, R350): what they return around a retire, that they overtake held operations, and
that they put off a retire for a bounded number of steps only. -/

namespace Sys2Proof.Machine

/-! The four free words, and what they read. -/

theorem free_iff (b : Bow) : free b = true ↔
    b.sz = 2 ∧ b.w = false ∧ (b.off = 0x00 ∨ b.off = 0x08 ∨ b.off = 0x0C ∨ b.off = 0x34) := by
  simp [free, and_assoc, or_assoc]

/-- BUSY is the one flag of STATUS that a retire can change (10_state.md R43, R49). -/
theorem getLsbD_statusWord_retire (s : State) {n : Nat} (hn : n ≠ 3) :
    (statusWord (retire s)).getLsbD n = (statusWord s).getLsbD n := by
  simp only [statusWord, BitVec.getLsbD_append, retire_fill, retire_err, retire_alg, retire_life]
  rcases Nat.lt_or_gt_of_ne hn with hlow | hhigh
  · have not_busy_bit : n < 2 ∨ n - 2 < 1 := by omega
    rcases not_busy_bit with h | h <;> simp [h]
  · have above_life : ¬ n < 2 := by omega
    have above_alg : ¬ n - 2 < 1 := by omega
    have above_busy : ¬ n - 2 - 1 < 1 := by omega
    simp only [above_life, above_alg, above_busy, if_false]

/-- Settles O26: a free read answers with a register that a retire does not write, or with STATUS, of which it writes BUSY. -/
theorem freeReadsSeeARetireOnlyInBusy : Obligations.FreeReadsSeeARetireOnlyInBusy := by
  refine ⟨free_iff, fun s hq => ⟨fun i hi => ?_, statusWord s, statusWord (retire s), rfl, rfl, ?_, fun n hn => ?_⟩⟩
  · simp only [List.mem_cons, List.not_mem_nil, or_false] at hi
    rcases hi with rfl | rfl | rfl
    · exact ⟨idWord, rfl, rfl⟩
    · exact ⟨causeWord s.cause, rfl, by rw [← retire_cause s]; rfl⟩
    · exact ⟨s.errData, rfl, by rw [← retire_errData s]; rfl⟩
  · rw [statusWord_bit3]
    exact busy_eq_true.mpr hq
  · exact (getLsbD_statusWord_retire s hn).symm

/-! Overtaking. -/

/-- Settles O51: the read is the first free request, and it races the retire. -/
theorem freeReadsOvertakeHeldOperationsOfOtherPaths : Obligations.FreeReadsOvertakeHeldOperationsOfOtherPaths := by
  intro s held rest r i hr hq hp hfree hd hheld
  have found : firstFree [] s.port = some (r, held ++ rest) := hp ▸ firstFree_append hfree List.not_mem_nil hheld
  exact step_of_firstFree hr hq found hd

/-! Fairness. -/

/-- A free operation answers and does nothing else (R341, 20_memory.md R82). -/
theorem perform_of_free {r : Request} (h : free r.bow = true) (s : State) : ∃ v, perform r s = .next (s.okRead v) := by
  rcases decode_of_free h with hd | hd | hd | hd <;> exact ⟨_, by rw [perform, hd]; rfl⟩

theorem nextAction_of_coreFirst {s : State} (hr : s.resetIn = false) (hq : s.pq ≠ []) (hc : coreFirst s = true) :
    nextAction s = .retire := by
  unfold nextAction
  rw [if_neg (by simp [hr]), if_pos (busy_eq_true.mpr hq)]
  cases firstFree [] s.port with
  | none => rfl
  | some found => exact if_pos hc

/-- While blocks are queued a step is a retire, or a free read that comes before it (log 3). -/
theorem step_of_busy {s : State} (hr : s.resetIn = false) (hq : s.pq ≠ []) :
    step s = .next (retire s) ∨
      (coreFirst s = false ∧ ∃ rest v, step s = .next ((takeRequest rest s).okRead v)) := by
  cases hc : coreFirst s with
  | true => exact .inl (by simp only [step, nextAction_of_coreFirst hr hq hc])
  | false =>
    cases hf : firstFree [] s.port with
    | none => exact .inl (step_of_no_free hr hq hf)
    | some found =>
      rcases nextAction_of_firstFree hr hq hf with ha | ha
      · exact .inl (by simp only [step, ha])
      · obtain ⟨v, hv⟩ := perform_of_free (firstFree_free hf) (takeRequest found.2 s)
        exact .inr ⟨rfl, found.2, v, by simp only [step, ha, hv]⟩

/-- A free read before the retire uses up one of the free accesses that may come before it. -/
theorem freeBeforeRetire_okRead_lt {s : State} (hq : s.pq ≠ []) (hc : coreFirst s = false) (rest : List Request) (v : Word) :
    freeBeforeRetire ((takeRequest rest s).okRead v) < freeBeforeRetire s := by
  have hlt : s.raced < Config.retireDelay s.alg s.draws := by simpa [coreFirst] using hc
  simp only [freeBeforeRetire, okRead_alg, okRead_draws, okRead_raced, takeRequest_alg, takeRequest_draws,
    takeRequest_raced, busy_eq_true.mpr hq, if_true]
  omega

/-- The oldest block retires once the free accesses before it are used up, if not earlier (R350). -/
theorem runSteps_retires_oldest (s : State) (hr : s.resetIn = false) (hq : s.pq ≠ []) :
    ∃ n, n ≤ freeBeforeRetire s + 1 ∧ SameStream (retire s) (runSteps n s) := by
  rcases step_of_busy hr hq with hstep | ⟨hc, rest, v, hstep⟩
  · exact ⟨1, by omega, by rw [runSteps_succ hstep]; exact .refl _⟩
  · have fewer := freeBeforeRetire_okRead_lt hq hc rest v
    have answered : SameStream s ((takeRequest rest s).okRead v) := (SameStream.takeRequest rest s).trans (.respond ..)
    obtain ⟨n, hn, hst⟩ := runSteps_retires_oldest ((takeRequest rest s).okRead v) hr hq
    exact ⟨n + 1, by omega, by rw [runSteps_succ hstep]; exact answered.retire.trans hst⟩
termination_by freeBeforeRetire s

/-- Settles O39: the retire within the bound leaves the rest of the queue and the compression of its head. -/
theorem everyBlockRetires : Obligations.EveryBlockRetires := by
  intro s blk rest hr hq
  obtain ⟨n, hn, hst⟩ := runSteps_retires_oldest s hr (by simp [hq])
  rw [retire_of_cons hq] at hst
  exact ⟨n, hn, hst.pq, hst.h⟩

end Sys2Proof.Machine
end

section
/-! What the reset event leaves at the host's side (70_reset_and_hazards.md R345). -/

namespace Sys2Proof.Machine

/-- Settles O3: the step is the reset event, which leaves no request, no response and the reset input at rest. -/
theorem resetDropsTheWaitingOperations : Obligations.ResetDropsTheWaitingOperations := fun s hr =>
  ⟨resetEvent s, step_of_resetIn hr, resetEvent_port s, resetEvent_resp s, resetEvent_resetIn s⟩

end Sys2Proof.Machine
end
